-- ==== Sys2Proof/Word.lean ====
section
/-! DEFINITION. The word types of the block: bytes of records, 32-bit operands, 16-bit samples. -/

namespace Sys2Proof

/-- One byte of a record (00_scope.md section 5). -/
abbrev Byte := BitVec 8

/-- A 32-bit operand: a sample rate (R3), a FEED length (R4), a consumed count (R53). -/
abbrev Word := BitVec 32

/-- One 16-bit sample, held as its 16 bits (R1, R33: it is copied, never computed on). -/
abbrev Sample := BitVec 16

/-- A record of a channel: its bytes, the first presented first; the channel delimits it (R45). -/
abbrev Record := List Byte

end Sys2Proof
end

