-- ==== Sys2Proof/Machine/Operands.lean ====
section
/-! DEFINITION. The operand forms of the records: little-endian words and samples, the reads of the input view, and
the layouts of the response, DELIVER and answer records. -/

namespace Sys2Proof.Machine

/-- `u32le` of four bytes (00_scope.md section 5, R47): the first byte is the least significant. -/
def u32le (b1 b2 b3 b4 : Byte) : Word :=
  BitVec.ofNat 32 (b1.toNat + 256 * b2.toNat + 65536 * b3.toNat + 16777216 * b4.toNat)

/-- `le32(v)`: the bytes `v[7:0], v[15:8], v[23:16], v[31:24]` (00_scope.md section 5). -/
def le32 (v : Word) : Record :=
  [BitVec.ofNat 8 v.toNat, BitVec.ofNat 8 (v.toNat / 256), BitVec.ofNat 8 (v.toNat / 65536),
    BitVec.ofNat 8 (v.toNat / 16777216)]

/-- `s16le(lo, hi)`: the 16-bit word whose low byte is `lo` and high byte is `hi` (R48); its signed value is its
`toInt` (`sext_16`). -/
def s16le (lo hi : Byte) : Sample := BitVec.ofNat 16 (lo.toNat + 256 * hi.toNat)

/-- `le16(s)`: the bytes `w[7:0], w[15:8]` of the sample's 16 bits (00_scope.md section 5). -/
def le16 (x : Sample) : Record := [BitVec.ofNat 8 x.toNat, BitVec.ofNat 8 (x.toNat / 256)]

/-- The sample whose signed value is `v` (`v mod 65536`, 00_scope.md section 5). -/
def sampleOfInt (v : Int) : Sample := BitVec.ofInt 16 v

/-- `MemRead(IN, a, 2)` (00_scope.md section 5): the bytes at offsets `a` and `a+1` of the input view; none beyond
its end (R36: never taken). -/
def memReadIn (input : List Byte) (a : Nat) : Option (Byte × Byte) :=
  match input[a]?, input[a + 1]? with
  | some lo, some hi => some (lo, hi)
  | _, _ => none

/-- `IN[i]` = `s16le(MemRead(IN, 2*i, 2))`, sample `i` of the payload (R31). -/
def inSample (input : List Byte) (i : Nat) : Option Sample :=
  match memReadIn input (2 * i) with
  | some (lo, hi) => some (s16le lo hi)
  | none => none

/-- `IN[pos .. pos+n)`, in increasing index (R35, R142); none if a byte is beyond the view. -/
def inRun (input : List Byte) (pos : Nat) : Nat → Option (List Sample)
  | 0 => some []
  | n + 1 =>
    match inSample input pos, inRun input (pos + 1) n with
    | some x, some xs => some (x :: xs)
    | _, _ => none

/-- The payload bytes of a run of samples, `le16` of each in order (R46 format V, R55). -/
def samplesBytes : List Sample → Record
  | [] => []
  | x :: xs => le16 x ++ samplesBytes xs

/-- A response record (R53): the status byte, then `le32(consumed)`. -/
def responseRecord (code : Byte) (consumed : Nat) : Record := code :: le32 (BitVec.ofNat 32 consumed)

/-- A DELIVER record (R55): `le32(SRATE)`, then `le16` of each sample of the frame in cell order. -/
def deliverRecord (rate : Word) (samples : List Sample) : Record := le32 rate ++ samplesBytes samples

/-- The answer record that means ACK: the one byte `0x00` (R56). -/
def ackRecord : Record := [0#8]

/-- The canonical NAK: the one byte `0x01` (R56). -/
def nakRecord : Record := [1#8]

/-- R56: exactly the 1-byte record `0x00` is ACK; every other answer record is NAK. -/
def isAck (b : Record) : Bool := b == ackRecord

end Sys2Proof.Machine
end

