-- ==== Sys2Proof/Syntax.lean ====
section
/-! DEFINITION. The command set: one constructor per row of spec/opcode_table.json (R49). -/

namespace Sys2Proof

/-- The three commands of R49. FLUSH has no opcode and is no constructor; PUSH, FEEDR and FEEDC (R58) are assembler
shorthands for `FEED`. -/
inductive Instr where
  /-- `CFG rate` (R61): format W, the operand is the sample rate in Hz. -/
  | cfg (rate : Word)
  /-- `FEED` (R70): format V, `len` is the sample count `L`, `payload` the bytes of the input view `IN`. -/
  | feed (len : Word) (payload : List Byte)
  /-- `END` (R62): format Z, no operand. -/
  | endStream
  deriving DecidableEq, Repr

end Sys2Proof
end

