-- ==== Sys2Proof/WellFormed.lean ====
section
/-! DEFINITION. Which terms of `Instr` a record can say. -/

namespace Sys2Proof

/-- R46, R50: the payload of a `FEED` is exactly `2*L` bytes; `CFG` takes every 32-bit rate and `END` has no
operand. -/
def Instr.wf : Instr → Bool
  | .cfg _ => true
  | .feed len payload => decide (payload.length = 2 * len.toNat)
  | .endStream => true

end Sys2Proof
end

