-- ==== Sys2Proof/Decode.lean ====
section
/-! DEFINITION. The decoder of command records, total on byte strings (R50), and the encoder written from the same
formats (R46, R49). -/

namespace Sys2Proof

/-- Why a record is illegal. The block does not report the reason: every one of them is answered `ERR_ILLEGAL`
(R50, R108). -/
inductive Illegal where
  /-- The record has no byte. -/
  | emptyRecord
  /-- The opcode is `0x00` or `0x04` to `0xFF` (R49). -/
  | unknownOpcode (opcode : Byte)
  /-- The opcode is legal and the record's length is not that of R49 for it. -/
  | wrongLength (opcode : Byte)
  deriving DecidableEq, Repr

/-- The opcode bytes of R49. -/
def opcodeCfg : Byte := 0x01#8
def opcodeFeed : Byte := 0x02#8
def opcodeEnd : Byte := 0x03#8

/-- `CFG`: format W, exactly 5 bytes (R46, R49, R50); `rest` is the record after its opcode. -/
def decodeCfg (rest : List Byte) : Except Illegal Instr :=
  match rest with
  | [b1, b2, b3, b4] => .ok (.cfg (Machine.u32le b1 b2 b3 b4))
  | _ => .error (.wrongLength opcodeCfg)

/-- `FEED`: format V; the lengths are compared as mathematical integers, never reduced modulo `2^32`
(R50, R140, D14). -/
def decodeFeed (rest : List Byte) : Except Illegal Instr :=
  match rest with
  | b1 :: b2 :: b3 :: b4 :: payload =>
    if payload.length = 2 * (Machine.u32le b1 b2 b3 b4).toNat then .ok (.feed (Machine.u32le b1 b2 b3 b4) payload)
    else .error (.wrongLength opcodeFeed)
  | _ => .error (.wrongLength opcodeFeed)

/-- `END`: format Z, exactly 1 byte (R46, R49, R50). -/
def decodeEnd (rest : List Byte) : Except Illegal Instr :=
  match rest with
  | [] => .ok .endStream
  | _ => .error (.wrongLength opcodeEnd)

/-- The decoder of R50. -/
def decode (b : Record) : Except Illegal Instr :=
  match b with
  | [] => .error .emptyRecord
  | op :: rest =>
    if op = opcodeCfg then decodeCfg rest
    else if op = opcodeFeed then decodeFeed rest
    else if op = opcodeEnd then decodeEnd rest
    else .error (.unknownOpcode op)

/-- The record of a command (R46, R49). -/
def encode : Instr → Record
  | .cfg rate => opcodeCfg :: Machine.le32 rate
  | .feed len payload => opcodeFeed :: (Machine.le32 len ++ payload)
  | .endStream => [opcodeEnd]

/-- The record length of R49 for a command: 5, `5 + 2*L`, 1. -/
def recordLength : Instr → Nat
  | .cfg _ => 5
  | .feed len _ => 5 + 2 * len.toNat
  | .endStream => 1

/-- `n` bytes of the number `w`, its least significant byte first. -/
def bytesOf (w : Nat) : Nat → List Byte
  | 0 => []
  | n + 1 => BitVec.ofNat 8 w :: bytesOf (w / 256) n

/-- The length of the record whose bits are `w` with zeros above them, as its opcode and length operand give it
(R49). -/
def tableLength (w : Nat) : Nat :=
  if w % 256 = 1 then 5
  else if w % 256 = 2 then 5 + 2 * (w / 256 % 4294967296)
  else 1

/-- The record whose first `nbits` bits are `w` as spec/opcode_table.json numbers them, with zero bytes up to the
length R49 gives it. -/
def tableRecord (nbits w : Nat) : Record := bytesOf (w % 2 ^ nbits) (max (nbits / 8) (tableLength (w % 2 ^ nbits)))

/-- What the decoder reads from the record of a row of spec/opcode_table.json. -/
def decodeTableWord (nbits w : Nat) : Option Instr :=
  match decode (tableRecord nbits w) with
  | .ok i => some i
  | .error _ => none

end Sys2Proof
end

