-- ==== Sys2Proof/Config.lean ====
section
/-! DEFINITION. What an implementation fixes: the one open parameter CAP_MAX (R5, R9, D3). -/

namespace Sys2Proof

/-- The parameters an instance of the block is built with. `CAP_MAX` is the only open one (R9); it is plain data
that every state of the instance carries and no step writes, so that a statement about every state is a statement
about every `CAP_MAX` (log entry 1). -/
structure Config where
  /-- `CAP_MAX`: the physical depth of the frame buffer, in samples (R5). -/
  capMax : Nat
  deriving DecidableEq, Repr

/-- The largest `CAP_MAX` that R5 allows, `floor((2^32 - 1) / 100)`. -/
def Config.capLimit : Nat := 42949672

/-- R5: `1 <= CAP_MAX <= 42949672`. -/
def Config.wf (c : Config) : Bool := decide (1 ≤ c.capMax) && decide (c.capMax ≤ Config.capLimit)

/-- `CAPW`, the width in bits of the registers `CAP` and `OFF`: the bit length of `CAP_MAX` (R5). -/
def Config.capw (c : Config) : Nat := Nat.log2 c.capMax + 1

/-- The reference instance of R5: `CAP_MAX = 1920` (one frame at 192000 Hz). -/
def Config.reference : Config := { capMax := 1920 }

end Sys2Proof
end

