-- ==== Sys2Proof/Machine/State.lean ====
section
/-! DEFINITION. The state of one block instance and its channels, the reasons a step can stop, and the state after
reset (R10 to R25). -/

namespace Sys2Proof.Machine

/-- The status codes of R101, each named as the spec names it. -/
inductive Status where
  | ok | errRateZero | errRateIndiv | errRateRange | errState | errBusy | errSink | errIllegal
  deriving DecidableEq, Repr

/-- What the frame-size calculator answers (R60). -/
inductive FrameSize where
  /-- The rate is refused with this error. -/
  | reject (e : Status)
  /-- The rate is accepted and gives this capacity in samples. -/
  | accept (cap : Nat)
  deriving DecidableEq, Repr

/-- The logical states of R19. -/
inductive LogicalState where
  | unconfigured | accumulating | transientlyFull | stalled
  deriving DecidableEq, Repr

/-- A completed frame: the snapshot of `CAP` samples plus the rate that a DELIVER carries (R22, R55). -/
structure Frame where
  rate : Word
  samples : List Sample
  deriving DecidableEq, Repr

/-- `PHASE` (R21). While it is `WAIT` there is exactly one in-flight frame, held with it (R22); in `COPY` there is
none. -/
inductive Phase where
  /-- The block's next step is a copy step or the completion. -/
  | copy
  /-- A DELIVER of this frame has been sent and the sink has not answered. -/
  | wait (inflight : Frame)
  deriving DecidableEq, Repr

/-- The in-flight frame of a phase, if there is one (R22). -/
def Phase.inflight : Phase → Option Frame
  | .copy => none
  | .wait fr => some fr

/-- The sequencer state of a `FEED` in progress (R21). -/
structure Feed where
  /-- The requester of the `FEED`, to which its one response goes (R53; log entry 6). -/
  requester : Nat
  /-- `LEN`, 32 bits: the number of samples of the payload. -/
  len : Nat
  /-- `POS`, 32 bits: the number of payload samples already copied into `BUF`. -/
  pos : Nat
  /-- `IN`: the payload's bytes, captured when the command was accepted (R41). -/
  input : List Byte
  /-- `PHASE`, and in `WAIT` the in-flight frame. -/
  phase : Phase
  deriving DecidableEq, Repr

/-- The frame buffer `BUF` (R14): the cells that hold a value, as (index, sample) pairs with strictly rising index.
A cell that is not listed holds `novalue` (R15). -/
abbrev Memory := List (Nat × Sample)

/-- Who moves next (R130, 00_scope.md section 7): the block takes its own step, the producer presents the next
command record, the sink presents the next answer record, the platform applies reset. -/
inductive Agent where
  | block | producer | sink | platform
  deriving DecidableEq, Repr

/-- One block instance and its channels. The fields from `srate` to `feed` are everything R10, R21 and R22 give the
block; `config` is its parameter; the others are the model's own view of the four channels of R45 and of the
environment (log entries 4, 5 and 6). -/
structure State where
  /-- The instance's parameters; written by no step (R5). -/
  config : Config
  /-- `SRATE[31:0]` (R11). -/
  srate : Word
  /-- `CAP[CAPW-1:0]` (R12). -/
  cap : Nat
  /-- `OFF[CAPW-1:0]` (R13). -/
  off : Nat
  /-- `BUF[0 .. CAP_MAX-1]` (R14, R15). -/
  buf : Memory
  /-- `CFGD` (R16). -/
  cfgd : Bool
  /-- `BUSY` (R17). -/
  busy : Bool
  /-- `LEN`, `POS`, `IN`, `PHASE` and the in-flight frame of the `FEED` in progress (R21, R22); none when there is
  no `FEED` in progress. -/
  feed : Option Feed
  /-- The requester of the command record now being handled (R53). -/
  port : Nat
  /-- `CMD`: the command records still to come, each with its requester, oldest first. -/
  cmd : List (Nat × Record)
  /-- `ANS`: the answer records still to come, oldest first. -/
  ans : List Record
  /-- `RSP`: the response records sent so far, each with the requester it went to, oldest first. -/
  rsp : List (Nat × Record)
  /-- `SNK`: the DELIVER records sent so far, oldest first. -/
  snk : List Record
  /-- The agents that move next, in order; empty means that each waits for the others as R123 and R130 ask. -/
  turns : List Agent
  deriving DecidableEq, Repr

/-- Why the machine would stop. The spec has no trap; each of these is an access that the spec says cannot happen
(R15, R36), and none is reachable from reset. -/
inductive Fault where
  /-- Raised by the copy step on a read of `IN` at or beyond `2*LEN` bytes (R36). Safe: the hardware never makes it. -/
  | inputByteAbsent
  /-- Raised by the copy step on a write of a cell at or beyond `BUF[CAP_MAX]` (R14, R36). Safe: the hardware never
  makes it. -/
  | bufCellAbsent
  /-- Raised by the flush step on a read of a cell that holds `novalue` (R15, D24). Safe: the hardware never makes
  it. -/
  | bufCellNoValue
  deriving DecidableEq, Repr

/-- Why the model would give an instruction no meaning. -/
inductive Refusal where
  /-- Raised by an arm of exec for an instruction not modelled yet; no arm does. Safe. -/
  | notModelled (mnemonic : String)
  deriving DecidableEq, Repr

/-- The state after reset (R25, R120): every register 0, every cell `novalue`, no command in progress, no frame in
flight. The instance is the reference one (log entry 1) and nothing has happened on its channels. -/
def State.reset : State where
  config := Config.reference
  srate := 0#32
  cap := 0
  off := 0
  buf := []
  cfgd := false
  busy := false
  feed := none
  port := 0
  cmd := []
  ans := []
  rsp := []
  snk := []
  turns := []

end Sys2Proof.Machine
end

