-- ==== Sys2Proof/Machine/Flags.lean ====
section
/-! DEFINITION. The signals derived from the registers and stored nowhere (R18), and the logical state (R19). -/

namespace Sys2Proof.Machine

/-- `ROOM = CAP - OFF` (R18); no borrow, because `OFF <= CAP` (R23 I3). -/
def room (s : State) : Nat := s.cap - s.off

/-- `FULL = (CFGD == 1) and (OFF == CAP)`, the fill-threshold detector (R18, R73). -/
def full (s : State) : Bool := s.cfgd && (s.off == s.cap)

/-- Whether a DELIVER is outstanding: `BUSY = 1` and `PHASE = WAIT` (R21, R87). -/
def waiting (s : State) : Bool :=
  match s.busy, s.feed with
  | true, some f => f.phase.inflight.isSome
  | _, _ => false

/-- The logical state, a function of `(CFGD, OFF, CAP, BUSY)` (R19). -/
def logicalState (s : State) : LogicalState :=
  if s.cfgd then
    if s.off = s.cap then (if s.busy then .transientlyFull else .stalled) else .accumulating
  else .unconfigured

end Sys2Proof.Machine
end

