-- ==== Sys2Proof/Machine/Ops.lean ====
section
/-! DEFINITION. The named operations over the frame buffer, the registers and the channels: cell reads and writes,
responses, raising an error, applying reset. -/

namespace Sys2Proof.Machine

/-- The outcome of one step of this machine. -/
abbrev Result := Host.Outcome State Fault Refusal

/-- The status byte of R101. -/
def statusCode : Status → Byte
  | .ok => 0x00#8
  | .errRateZero => 0x01#8
  | .errRateIndiv => 0x02#8
  | .errRateRange => 0x03#8
  | .errState => 0x04#8
  | .errBusy => 0x05#8
  | .errSink => 0x06#8
  | .errIllegal => 0x07#8

/-- `BUF[i]`, none when the cell holds `novalue` (R15). -/
def bufRead : Memory → Nat → Option Sample
  | [], _ => none
  | (j, v) :: rest, i => if i = j then some v else bufRead rest i

/-- `BUF[i] <- v` (R14), keeping the cells in rising order. -/
def bufWrite : Memory → Nat → Sample → Memory
  | [], i, v => [(i, v)]
  | (j, w) :: rest, i, v =>
    if i < j then (i, v) :: (j, w) :: rest
    else if i = j then (i, v) :: rest
    else (j, w) :: bufWrite rest i v

/-- The canonical form of the buffer: strictly rising indices. -/
def Memory.wf : Memory → Bool
  | [] => true
  | (i, _) :: rest => (match rest with | [] => true | (j, _) :: _ => decide (i < j)) && Memory.wf rest

/-- The copy of R71 line (b): sample `k` of the run to cell `at_ + k`, in increasing `k` (R35); none when a cell is
at or beyond the physical depth `depth` (R14, R36: never taken). -/
def bufWriteRun (depth : Nat) (m : Memory) (at_ : Nat) : List Sample → Option Memory
  | [] => some m
  | x :: xs => if at_ < depth then bufWriteRun depth (bufWrite m at_ x) (at_ + 1) xs else none

/-- `BUF[i .. i+n)`, in cell order (R86); none when one of the cells holds `novalue`. -/
def bufRun (m : Memory) (i : Nat) : Nat → Option (List Sample)
  | 0 => some []
  | n + 1 =>
    match bufRead m i, bufRun m (i + 1) n with
    | some x, some xs => some (x :: xs)
    | _, _ => none

/-- `respond(status, consumed)`: one response record on `RSP`, addressed to `requester` (R53). -/
def respond (requester : Nat) (st : Status) (consumed : Nat) (s : State) : State :=
  { s with rsp := s.rsp ++ [(requester, responseRecord (statusCode st) consumed)] }

/-- Error entry for every error but `ERR_SINK` (R110): nothing changes and one response `(code, 0)` goes to the
requester of the record being handled. -/
def raise (e : Status) (s : State) : State := respond s.port e 0 s

/-- `deliver(frame, rate)`: one DELIVER record on `SNK` (R55, R86). -/
def deliver (fr : Frame) (s : State) : State :=
  { s with snk := s.snk ++ [deliverRecord fr.rate fr.samples] }

/-- The registers of a block with no stream open (R25): `END` leaves them (R62), and reset (R120). -/
def clearRegisters (s : State) : State :=
  { s with srate := 0#32, cap := 0, off := 0, buf := [], cfgd := false }

/-- The reset input (R120, R121): every register at its value of R25, the command in progress and the in-flight
frame abandoned, nothing sent on any channel. -/
def applyReset (s : State) : State := { clearRegisters s with busy := false, feed := none }

end Sys2Proof.Machine
end

