-- ==== Sys2Proof/Machine/Flush.lean ====
section
/-! DEFINITION. FLUSH (R85): sending the DELIVER, and what the sink's answer does. -/

namespace Sys2Proof.Machine

/-- `PHASE <- WAIT`, with the frame that is then in flight (R22, R86); the other fields of the sequencer stay. -/
def beginWait (f : Feed) (fr : Frame) (s : State) : State := { s with feed := some { f with phase := .wait fr } }

/-- The sending half of FLUSH (R85, R86): the snapshot of `BUF[0 .. CAP-1]` and `SRATE` goes out as one DELIVER and
`PHASE <- WAIT`. `f` is the sequencer of the `FEED` in progress. -/
def flushSend (f : Feed) (s : State) : Result :=
  match bufRun s.buf 0 s.cap with
  | none => .fault .bufCellNoValue
  | some xs => .next (deliver ⟨s.srate, xs⟩ (beginWait f ⟨s.srate, xs⟩ s))

/-- ACK (R88): `OFF <- 0`, every cell `novalue`, `PHASE <- COPY`; the `FEED` goes on. -/
def flushAck (f : Feed) (s : State) : State :=
  { s with off := 0, buf := [], feed := some { f with phase := .copy } }

/-- NAK (R89): the buffer keeps the refused frame, the `FEED` ends with `ERR_SINK` and `consumed = POS`, the rest of
the payload is forgotten. -/
def flushNak (f : Feed) (s : State) : State :=
  respond f.requester .errSink f.pos { s with busy := false, feed := none }

/-- An answer record arrives (R81 step ANSWER, R56): it answers the outstanding DELIVER, and is ignored when there
is none. -/
def takeAnswer (b : Record) (s : State) : State :=
  match s.busy, s.feed with
  | true, some f =>
    match f.phase with
    | .wait _ => if isAck b then flushAck f s else flushNak f s
    | .copy => s
  | _, _ => s

end Sys2Proof.Machine
end

