-- ==== Sys2Proof/Machine/Feed.lean ====
section
/-! DEFINITION. `FEED`: the acceptance step (R70), and the block's own steps of the copy loop (R71, R81). -/

namespace Sys2Proof.Machine

/-- The registers the acceptance of a `FEED` with `L >= 1` writes (R70): `BUSY <- 1`, `LEN <- L`, `POS <- 0`,
`PHASE <- COPY`, and the payload captured (R41). -/
def acceptFeed (len : Word) (payload : List Byte) (s : State) : State :=
  { s with
    busy := true
    feed := some { requester := s.port, len := len.toNat, pos := 0, input := payload, phase := .copy } }

/-- `FEED` (R70), the step ACCEPT of R81: it rejects, answers the empty `FEED` at once (R75), or starts the loop that
`ownStep` runs. -/
def execFeed (len : Word) (payload : List Byte) (s : State) : Result :=
  if s.busy then .next (raise .errBusy s)
  else if s.cfgd then
    if len.toNat = 0 then .next (respond s.port .ok 0 s) else .next (acceptFeed len payload s)
  else .next (raise .errState s)

/-- `n = min(ROOM, LEN - POS)`, how many samples one copy step moves (R72). -/
def copyCount (f : Feed) (s : State) : Nat := min (room s) (f.len - f.pos)

/-- The state after lines (a) to (c) of R71, with `m` the buffer the copy has written (R72). -/
def afterCopy (f : Feed) (m : Memory) (s : State) : State :=
  { s with
    buf := m
    off := s.off + copyCount f s
    feed := some { f with pos := f.pos + copyCount f s } }

/-- Line (d) of R71: the threshold detector, and the emission it triggers (R73, R86). -/
def detect (f : Feed) (s : State) : Result := if full s then flushSend f s else .next s

/-- The step ITER of R81: one copy, and the DELIVER when it has filled the buffer. -/
def iterStep (f : Feed) (s : State) : Result :=
  match inRun f.input f.pos (copyCount f s) with
  | none => .fault .inputByteAbsent
  | some xs =>
    match bufWriteRun s.config.capMax s.buf s.off xs with
    | none => .fault .bufCellAbsent
    | some m => detect { f with pos := f.pos + copyCount f s } (afterCopy f m s)

/-- The step COMPLETE of R81 (R74): `BUSY <- 0`, `respond(OK, LEN)`. -/
def completeStep (f : Feed) (s : State) : State :=
  respond f.requester .ok f.len { s with busy := false, feed := none }

/-- The block's own step: ITER or COMPLETE, whichever R81 enables; nothing while the block is idle or waits for the
sink (R87). -/
def ownStep (s : State) : Result :=
  match s.busy, s.feed with
  | true, some f =>
    match f.phase with
    | .wait _ => .next s
    | .copy =>
      if f.pos < f.len then iterStep f s
      else if f.pos = f.len then .next (completeStep f s)
      else .next s
  | _, _ => .next s

end Sys2Proof.Machine
end

