-- ==== Sys2Proof/Machine/Lifecycle.lean ====
section
/-! DEFINITION. The frame-size calculator (R60) and the two lifecycle commands, `CFG` (R61) and `END` (R62). -/

namespace Sys2Proof.Machine

/-- `FRAME_DIV` (R2): a frame is one hundredth of a second of samples. -/
def frameDiv : Nat := 100

/-- The frame-size calculator, a pure function of the rate and `CAP_MAX`; the three tests in the order written
(R60, R109). -/
def framesize (capMax : Nat) (rate : Word) : FrameSize :=
  if rate.toNat = 0 then .reject .errRateZero
  else if rate.toNat % frameDiv ≠ 0 then .reject .errRateIndiv
  else if rate.toNat / frameDiv > capMax then .reject .errRateRange
  else .accept (rate.toNat / frameDiv)

/-- The registers a successful `CFG` writes (R61). -/
def configure (rate : Word) (cap : Nat) (s : State) : State :=
  { s with srate := rate, cap := cap, off := 0, buf := [], cfgd := true }

/-- `CFG rate` (R61), one atomic step; the checks in the order of R109. -/
def execCfg (rate : Word) (s : State) : Result :=
  if s.busy then .next (raise .errBusy s)
  else if s.cfgd then .next (raise .errState s)
  else
    match framesize s.config.capMax rate with
    | .reject e => .next (raise e s)
    | .accept cap => .next (respond s.port .ok 0 (configure rate cap s))

/-- `END` (R62), one atomic step: the pending samples are discarded and no DELIVER is sent. -/
def execEndStream (s : State) : Result :=
  if s.busy then .next (raise .errBusy s)
  else if s.cfgd then .next (respond s.port .ok 0 (clearRegisters s))
  else .next (raise .errState s)

end Sys2Proof.Machine
end

