-- ==== Sys2Proof/Machine/Dispatch.lean ====
section
/-! DEFINITION. The meaning of every command: one arm per constructor of Instr. -/

namespace Sys2Proof.Machine

def exec (i : Instr) (s : State) : Host.Outcome State Fault Refusal :=
  match i with
  | .cfg rate => Sys2Proof.Machine.execCfg rate s
  | .feed len payload => Sys2Proof.Machine.execFeed len payload s
  | .endStream => Sys2Proof.Machine.execEndStream s

end Sys2Proof.Machine
end

