-- ==== Sys2Proof/Machine/Environment.lean ====
section
/-! DEFINITION. The agents around the block (R130): who moves next, and the moves of the sink and the platform. -/

namespace Sys2Proof.Machine

/-- Who moves when the schedule names nobody, each agent keeping its duty (R123, R130): during a `FEED` the sink when
a DELIVER is outstanding and the block otherwise (R81: exactly one of ITER, COMPLETE or ANSWER is possible), and the
producer when the block is idle. -/
def defaultAgent (s : State) : Agent :=
  if s.busy then (if waiting s then .sink else .block) else .producer

/-- The agent that moves now, and the state with its turn taken off the schedule. -/
def nextTurn (s : State) : Agent × State :=
  match s.turns with
  | a :: rest => (a, { s with turns := rest })
  | [] => (defaultAgent s, s)

/-- The sink presents its next answer record (R56); with none to present it says nothing, and the block goes on
waiting (R87, R126). -/
def sinkMove (s : State) : State :=
  match s.ans with
  | b :: rest => takeAnswer b { s with ans := rest }
  | [] => s

end Sys2Proof.Machine
end

