-- ==== Sys2Proof/Machine/Command.lean ====
section
/-! DEFINITION. A command record begins: the checks every record passes before its command runs (R109). -/

namespace Sys2Proof.Machine

/-- The record `b` begins. While `BUSY = 1` it is rejected and not decoded (R106); an illegal one is answered
`ERR_ILLEGAL` (R108); otherwise its command runs (R109). -/
def beginRecord (b : Record) (s : State) : Result :=
  if s.busy then .next (raise .errBusy s)
  else
    match decode b with
    | .error _ => .next (raise .errIllegal s)
    | .ok i => exec i s

/-- The producer presents its next command record, from the requester `r` (R45); with none to present nothing
happens. -/
def producerMove (s : State) : Result :=
  match s.cmd with
  | (r, b) :: rest => beginRecord b { s with cmd := rest, port := r }
  | [] => .next s

/-- One move of one agent. -/
def agentMove (a : Agent) (s : State) : Result :=
  match a with
  | .block => ownStep s
  | .producer => producerMove s
  | .sink => .next (sinkMove s)
  | .platform => .next (applyReset s)

/-- Put a record in front of every other input, so that the next move is the producer's and presents it; its
requester is 0 (log entry 10). -/
def loadRecord (b : Record) (s : State) : State :=
  { s with cmd := (0, b) :: s.cmd, turns := .producer :: s.turns }

end Sys2Proof.Machine
end

