-- ==== Sys2Proof/Machine/Step.lean ====
section
/-! DEFINITION. One step of the machine: the agent whose turn it is makes its move. -/

namespace Sys2Proof.Machine

/-- One step: `nextTurn` says who moves, `agentMove` what the move does. -/
def step (s : State) : Host.Outcome State Fault Refusal := agentMove (nextTurn s).1 (nextTurn s).2

/-- `s` with the record of a row of spec/opcode_table.json placed where the next step takes its command from. -/
def State.withFetchWord (s : State) (nbits w : Nat) : State := loadRecord (tableRecord nbits w) s

end Sys2Proof.Machine
end

