-- ==== Sys2Proof/Machine/Assembler.lean ====
section
/-! DEFINITION. The textual form of a command (R57), the pseudo-instructions (R58), and the sequences of samples the
spec's shorthands name (00_scope.md section 5). A line is a list of characters. -/

namespace Sys2Proof.Machine

/-- The `FEED` of these samples (R46 format V); a length of `2^32` or more cannot be presented (R4). -/
def feedCommand (xs : List Sample) : Instr := .feed (BitVec.ofNat 32 xs.length) (samplesBytes xs)

/-- `ramp(a, n)`: the samples `a, a+1, ..., a+n-1`. -/
def ramp (a : Int) : Nat → List Sample
  | 0 => []
  | n + 1 => sampleOfInt a :: ramp (a + 1) n

/-- `rep(v, n)`: `n` copies of `v`. -/
def rep (v : Int) (n : Nat) : List Sample := List.replicate n (sampleOfInt v)

/-- `PUSH <s>` (R58): the `FEED` of one sample. -/
def push (v : Int) : Instr := feedCommand [sampleOfInt v]

/-- `FEEDR <a>, <n>` (R58): the `FEED` of `ramp(a, n)`. -/
def feedr (a : Int) (n : Nat) : Instr := feedCommand (ramp a n)

/-- `FEEDC <v>, <n>` (R58): the `FEED` of `rep(v, n)`. -/
def feedc (v : Int) (n : Nat) : Instr := feedCommand (rep v n)

/-- Blanks between the parts of a line (log entry 14). -/
def isBlank (c : Char) : Bool := c == ' ' || c == '\t'

/-- A text without the blanks at its two ends. -/
def trimBlanks (cs : List Char) : List Char := ((cs.dropWhile isBlank).reverse.dropWhile isBlank).reverse

/-- The value of a digit in a base; none for any other character. -/
def digitValue (base : Nat) (c : Char) : Option Nat :=
  let v := if '0'.toNat ≤ c.toNat ∧ c.toNat ≤ '9'.toNat then c.toNat - '0'.toNat
    else if 'a'.toNat ≤ c.toNat ∧ c.toNat ≤ 'f'.toNat then c.toNat - 'a'.toNat + 10
    else if 'A'.toNat ≤ c.toNat ∧ c.toNat ≤ 'F'.toNat then c.toNat - 'A'.toNat + 10
    else base
  if v < base then some v else none

/-- The number that these digits write after the value `acc`. -/
def parseDigits (base : Nat) (acc : Nat) : List Char → Option Nat
  | [] => some acc
  | c :: cs =>
    match digitValue base c with
    | some d => parseDigits base (acc * base + d) cs
    | none => none

/-- A number: decimal, or hexadecimal with `0x` (R57). -/
def parseNumber (cs : List Char) : Option Nat :=
  match cs with
  | [] => none
  | '0' :: 'x' :: c :: rest => parseDigits 16 0 (c :: rest)
  | _ => parseDigits 10 0 cs

/-- A sample: signed decimal in `[-32768, 32767]`, or 16-bit hexadecimal read as `sext_16` (R57). -/
def parseSample (cs : List Char) : Option Int :=
  match cs with
  | '0' :: 'x' :: c :: rest =>
    match parseDigits 16 0 (c :: rest) with
    | some v => if v < 65536 then some (BitVec.ofNat 16 v).toInt else none
    | none => none
  | '-' :: c :: rest =>
    match parseDigits 10 0 (c :: rest) with
    | some v => if v ≤ 32768 then some (-(v : Int)) else none
    | none => none
  | [] => none
  | _ =>
    match parseDigits 10 0 cs with
    | some v => if v ≤ 32767 then some (v : Int) else none
    | none => none

/-- The parts of a text between its commas. -/
def splitCommas : List Char → List (List Char)
  | [] => [[]]
  | c :: cs =>
    match splitCommas cs with
    | [] => [[c]]
    | w :: ws => if c = ',' then [] :: w :: ws else (c :: w) :: ws

/-- The samples of an operand list; none if one of them is none. -/
def parseSamples : List (List Char) → Option (List Sample)
  | [] => some []
  | w :: ws =>
    match parseSample (trimBlanks w), parseSamples ws with
    | some v, some vs => some (sampleOfInt v :: vs)
    | _, _ => none

/-- The operands of a command: nothing, or the parts between the commas. -/
def operandTexts (cs : List Char) : List (List Char) :=
  if trimBlanks cs = [] then [] else (splitCommas cs).map trimBlanks

/-- `CFG <rate>`, `rate` in `[0, 4294967295]` (R57). -/
def assembleCfg (ops : List (List Char)) : Option Instr :=
  match ops with
  | [w] =>
    match parseNumber w with
    | some v => if v < 4294967296 then some (.cfg (BitVec.ofNat 32 v)) else none
    | none => none
  | _ => none

/-- `FEED <s0>, ..., <sL-1>`, `L >= 0` and below `2^32` (R57, R4). -/
def assembleFeed (ops : List (List Char)) : Option Instr :=
  match parseSamples ops with
  | some xs => if xs.length < 4294967296 then some (feedCommand xs) else none
  | none => none

/-- `PUSH <s>` (R58). -/
def assemblePush (ops : List (List Char)) : Option Instr :=
  match ops with
  | [w] => (parseSample w).map push
  | _ => none

/-- `FEEDR <a>, <n>`; every value must stay a sample (R58). -/
def assembleFeedr (ops : List (List Char)) : Option Instr :=
  match ops with
  | [w, v] =>
    match parseSample w, parseNumber v with
    | some a, some n => if n = 0 ∨ a + (n : Int) ≤ 32768 then some (feedr a n) else none
    | _, _ => none
  | _ => none

/-- `FEEDC <v>, <n>` (R58). -/
def assembleFeedc (ops : List (List Char)) : Option Instr :=
  match ops with
  | [w, v] =>
    match parseSample w, parseNumber v with
    | some a, some n => if n < 4294967296 then some (feedc a n) else none
    | _, _ => none
  | _ => none

/-- One line: a command, its comment after `;` dropped (R57). A line with no command gives the empty list; a line
that is none of the forms of R57 and R58 gives none. -/
def assembleLine (line : List Char) : Option (List Instr) :=
  let text := trimBlanks (line.takeWhile (fun c => c != ';'))
  let word := text.takeWhile (fun c => !isBlank c)
  let ops := operandTexts (text.dropWhile (fun c => !isBlank c))
  if word = [] then some []
  else if word = ['C', 'F', 'G'] then (assembleCfg ops).map (fun i => [i])
  else if word = ['F', 'E', 'E', 'D'] then (assembleFeed ops).map (fun i => [i])
  else if word = ['E', 'N', 'D'] then (if ops = [] then some [.endStream] else none)
  else if word = ['P', 'U', 'S', 'H'] then (assemblePush ops).map (fun i => [i])
  else if word = ['F', 'E', 'E', 'D', 'R'] then (assembleFeedr ops).map (fun i => [i])
  else if word = ['F', 'E', 'E', 'D', 'C'] then (assembleFeedc ops).map (fun i => [i])
  else none

/-- A text of several lines, one command per line (R57). -/
def assembleLines : List (List Char) → Option (List Instr)
  | [] => some []
  | l :: ls =>
    match assembleLine l, assembleLines ls with
    | some i, some is => some (i ++ is)
    | _, _ => none

end Sys2Proof.Machine
end

