-- ==== Sys2Proof/Safety.lean ====
section
/-! DEFINITION. What claims about the machine are stated with: the invariants of R23, runs, the frames of a stream of
samples (R77), and the ghost sequences of R27. -/

namespace Sys2Proof.Machine

/-- What holds of the sequencer of a `FEED` in progress in the state `s` (R21, R22, R23 I6 and I7). -/
structure FeedOk (s : State) (f : Feed) : Prop where
  /-- I6: a `FEED` runs only on a configured block. -/
  configured : s.cfgd = true
  /-- R17: `BUSY` is set only by a `FEED` with `L >= 1`. -/
  len_pos : 1 ≤ f.len
  /-- R21: `LEN` has 32 bits. -/
  len_lt : f.len < 4294967296
  /-- I6: `0 <= POS <= LEN`. -/
  pos_le : f.pos ≤ f.len
  /-- R21: `IN` is `2*LEN` bytes. -/
  input_len : f.input.length = 2 * f.len
  /-- R80: in `COPY` the buffer is full only on the first iteration of a `FEED` accepted in state Stalled. -/
  copy_full : f.phase = .copy → s.off = s.cap → f.pos = 0
  /-- I7 and R22: in `WAIT` the buffer is full and the in-flight frame is the snapshot of buffer and rate. -/
  wait_full : ∀ fr ∈ f.phase.inflight, s.off = s.cap ∧ fr.rate = s.srate ∧ bufRun s.buf 0 s.cap = some fr.samples

/-- The invariants of R23 (I4, which speaks of the past, apart), with the widths of R5 and R21, R15's account of the
cells that hold a value, and the buffer's canonical form. -/
structure Inv (s : State) : Prop where
  /-- R5: `CAP_MAX` is in its range. -/
  config_wf : s.config.wf = true
  /-- The buffer is in its canonical form. -/
  mem_wf : Memory.wf s.buf = true
  /-- I1. -/
  unconfigured : s.cfgd = false → s.srate = 0#32 ∧ s.cap = 0 ∧ s.off = 0 ∧ s.busy = false
  /-- I2. -/
  configured : s.cfgd = true →
    s.srate.toNat % 100 = 0 ∧ s.cap = s.srate.toNat / 100 ∧ 1 ≤ s.cap ∧ s.cap ≤ s.config.capMax
  /-- I3. -/
  off_le : s.off ≤ s.cap
  /-- I5 and R15: the cells that hold a value are exactly `BUF[0 .. OFF-1]`. -/
  cells : s.buf.map Prod.fst = List.range s.off
  /-- R17, R21: the sequencer state exists exactly while `BUSY = 1`. -/
  busy_feed : s.busy = s.feed.isSome
  /-- I6, I7. -/
  feed_ok : ∀ f ∈ s.feed, FeedOk s f

/-- R132: a run is quiescent whenever `BUSY = 0`. -/
def Quiescent (s : State) : Prop := s.busy = false

/-- The registers of the block, and nothing of its channels, are the same in the two states. -/
def SameRegisters (s t : State) : Prop :=
  t.srate = s.srate ∧ t.cap = s.cap ∧ t.off = s.off ∧ t.buf = s.buf ∧ t.cfgd = s.cfgd ∧ t.busy = s.busy ∧
    t.feed = s.feed

/-- Nothing of the environment's side has moved: the parameters, the requester at hand and the pending records are
the same. -/
def SameEnvironment (s t : State) : Prop :=
  t.config = s.config ∧ t.port = s.port ∧ t.cmd = s.cmd ∧ t.ans = s.ans

/-- The next step is the producer's, and it presents the record `b` of the requester `r`; `rest` come after it. -/
def AtRecord (s : State) (r : Nat) (b : Record) (rest : List (Nat × Record)) : Prop :=
  (nextTurn s).1 = .producer ∧ s.cmd = (r, b) :: rest

/-- The state in which a presented record is handled: its turn and itself taken off, its requester at hand. -/
def presented (s : State) (r : Nat) (rest : List (Nat × Record)) : State :=
  { s with turns := s.turns.tail, cmd := rest, port := r }

/-- The next step is the sink's, and it presents the answer record `b`; `rest` come after it. -/
def AtAnswer (s : State) (b : Record) (rest : List Record) : Prop :=
  (nextTurn s).1 = .sink ∧ s.ans = b :: rest

/-- The 32-bit operand of a record (R47): `u32le` of its bytes 1 to 4. -/
def operandAt (b : Record) : Word := u32le (b.getD 1 0) (b.getD 2 0) (b.getD 3 0) (b.getD 4 0)

/-- `k` steps, ended by the first fault or refusal. -/
def runSteps : Nat → State → Result
  | 0, s => .next s
  | k + 1, s =>
    match step s with
    | .next t => runSteps k t
    | .fault r => .fault r
    | .refused r => .refused r

/-- The samples of the buffer, `BUF[0 .. OFF)`, in cell order. -/
def bufSamples (s : State) : List Sample := s.buf.map Prod.snd

/-- Frame `j` of a stream of samples cut at `cap` (R77): `S[j*cap .. (j+1)*cap)`. -/
def frameAt (cap : Nat) (stream : List Sample) (j : Nat) : List Sample := (stream.drop (j * cap)).take cap

/-- The DELIVER records of the first `k` frames of a stream (R77). -/
def frameRecords (rate : Word) (cap : Nat) (stream : List Sample) (k : Nat) : List Record :=
  (List.range k).map (fun j => deliverRecord rate (frameAt cap stream j))

/-- The ghost sequences of R27, carried outside the machine: the samples taken and the samples of the frames answered
ACK, since the last successful `CFG`. -/
structure Ghost where
  fed : List Sample
  emitted : List Sample
  deriving DecidableEq, Repr

/-- The payload samples a step from `s` to `t` has taken into the buffer: those between the two positions of the
input cursor (R53). -/
def takenBy (s t : State) : List Sample :=
  match s.feed, t.feed with
  | some f, some f' => (inRun f.input f.pos (f'.pos - f.pos)).getD []
  | _, _ => []

/-- The frame a step from `s` to `t` has had accepted: only an ACK ends the wait and leaves the `FEED` running
(R88). -/
def acceptedBy (s t : State) : List Sample :=
  match s.feed, t.feed with
  | some f, some f' =>
    match f.phase, f'.phase with
    | .wait fr, .copy => fr.samples
    | _, _ => []
  | _, _ => []

/-- The ghost after a step from `s` to `t` (R27): empty until a `CFG` succeeds, then `FED` and `EMITTED` grow by what
the step took and what the sink accepted. -/
def Ghost.after (g : Ghost) (s t : State) : Ghost :=
  if s.cfgd && t.cfgd then { fed := g.fed ++ takenBy s t, emitted := g.emitted ++ acceptedBy s t }
  else { fed := [], emitted := [] }

/-- R76: `FED = EMITTED ++ BUF[0 .. OFF)`. -/
def NoLoss (g : Ghost) (s : State) : Prop := g.fed = g.emitted ++ bufSamples s

end Sys2Proof.Machine
end

