-- ==== Sys2Proof/Certificates/Slice0/Obligations.lean ====
section
/-! DEFINITION. The statements for the provers. In all of them `rsp` and `snk` are the records sent so far (log entry
5), the number beside a record of `rsp` or `cmd` is its requester (log entry 6), and who moves next is the schedule's
word (`nextTurn`, log entry 4): these are the model's own view of the channels of R45. -/

open Sys2Proof Sys2Proof.Machine

/-! ### Records -/

/-- R46, R49, R50: the record of every well-formed command decodes to that command, with every operand. -/
def Obligations.DecodeOfEncode : Prop :=
  ∀ i : Instr, i.wf = true → decode (encode i) = .ok i

/-- R50: every bit of every legal record has a meaning, so a record that decodes is the record of what it decodes to,
and what it decodes to is well-formed. -/
def Obligations.EncodeOfDecode : Prop :=
  ∀ (b : Record) (i : Instr), decode b = .ok i → i.wf = true ∧ encode i = b

/-- R50: the decoder on every byte string, and how an illegal record is answered. -/
def Obligations.DecoderIsTotal : Prop :=
  ∀ b : Record,
    (b.length = 5 ∧ b[0]? = some 0x01#8 → decode b = .ok (.cfg (operandAt b))) ∧
    (5 ≤ b.length ∧ b[0]? = some 0x02#8 ∧ b.length = 5 + 2 * (operandAt b).toNat →
      decode b = .ok (.feed (operandAt b) (b.drop 5))) ∧
    (b.length = 1 ∧ b[0]? = some 0x03#8 → decode b = .ok .endStream) ∧
    (¬(b.length = 5 ∧ b[0]? = some 0x01#8) ∧
      ¬(5 ≤ b.length ∧ b[0]? = some 0x02#8 ∧ b.length = 5 + 2 * (operandAt b).toNat) ∧
      ¬(b.length = 1 ∧ b[0]? = some 0x03#8) →
      (∃ e, decode b = .error e) ∧
      ∀ s : State,
        (s.busy = false → beginRecord b s = .next { s with rsp := s.rsp ++ [(s.port, [7#8, 0#8, 0#8, 0#8, 0#8])] }) ∧
        (s.busy = true → beginRecord b s = .next { s with rsp := s.rsp ++ [(s.port, [5#8, 0#8, 0#8, 0#8, 0#8])] }))

/-- R46, R49, R50: records written out byte by byte from the spec's vectors. Three decode to the commands they stand for,
and the record of V-D14 is refused. That the refusal names a reason, and which, is the model's choice (log entry 16). -/
def Obligations.WrittenRecordsDecode : Prop :=
  decode [0x01#8, 0x80#8, 0x3E#8, 0x00#8, 0x00#8] = .ok (.cfg 16000#32) ∧
  decode [0x02#8, 0x02#8, 0x00#8, 0x00#8, 0x00#8, 0x34#8, 0x12#8, 0xCC#8, 0xED#8] =
    .ok (feedCommand [0x1234#16, 0xEDCC#16]) ∧
  decode [0x03#8] = .ok .endStream ∧
  decode [0x02#8, 0x00#8, 0x00#8, 0x00#8, 0x80#8] = .error (.wrongLength 0x02#8)

/-- R47, R48: the operand of a record is the sum of its bytes 1 to 4, zero-extended; it is the rate of a `CFG` and the
sample count of a `FEED`; and sample `i` of a payload is the 16-bit two's-complement number of bytes `5+2*i` and
`6+2*i` of the record, low byte first. -/
def Obligations.OperandAssembly : Prop :=
  (∀ b1 b2 b3 b4 : Byte, (u32le b1 b2 b3 b4).toNat =
    b1.toNat + 256 * b2.toNat + 65536 * b3.toNat + 16777216 * b4.toNat) ∧
  (∀ (b : Record) (rate : Word), decode b = .ok (.cfg rate) → rate = operandAt b) ∧
  (∀ (b : Record) (len : Word) (payload : List Byte), decode b = .ok (.feed len payload) →
    len = operandAt b ∧ payload.length = 2 * len.toNat ∧
    ∀ i, i < len.toNat → ∃ lo hi, b[5 + 2 * i]? = some lo ∧ b[6 + 2 * i]? = some hi ∧
      inSample payload i = some (s16le lo hi)) ∧
  (∀ lo hi : Byte, -32768 ≤ (s16le lo hi).toInt ∧ (s16le lo hi).toInt ≤ 32767 ∧
    (s16le lo hi).toInt =
      if lo.toNat + 256 * hi.toNat ≥ 32768 then ((lo.toNat + 256 * hi.toNat : Nat) : Int) - 65536
      else ((lo.toNat + 256 * hi.toNat : Nat) : Int))

/-- R33: the two bytes in which a sample enters are the two bytes in which it leaves, for every bit pattern. -/
def Obligations.SampleLeavesAsItCame : Prop :=
  ∀ lo hi : Byte, le16 (s16le lo hi) = [lo, hi]

/-- R53: a response record is five bytes, the status and the consumed count little-endian. -/
def Obligations.ResponseRecordLayout : Prop :=
  ∀ (st : Status) (n : Nat), n < 4294967296 →
    (responseRecord (statusCode st) n).length = 5 ∧
    (responseRecord (statusCode st) n)[0]? = some (statusCode st) ∧
    (operandAt (responseRecord (statusCode st) n)).toNat = n

/-- R55: a DELIVER record is `4 + 2*CAP` bytes, the rate and then the samples, each little-endian. -/
def Obligations.DeliverRecordLayout : Prop :=
  ∀ (rate : Word) (xs : List Sample),
    (deliverRecord rate xs).length = 4 + 2 * xs.length ∧
    (deliverRecord rate xs).take 4 = le32 rate ∧
    ∀ (i : Nat) (x : Sample), xs[i]? = some x →
      (deliverRecord rate xs)[4 + 2 * i]? = some (x.extractLsb' 0 8) ∧
      (deliverRecord rate xs)[5 + 2 * i]? = some (x.extractLsb' 8 8)

/-- R58: the pseudo-instructions are `FEED`s of the samples they name. -/
def Obligations.PseudoInstructionsExpand : Prop :=
  (∀ v : Int, push v = feedCommand [sampleOfInt v]) ∧
  (∀ (a : Int) (n : Nat), ∃ xs, feedr a n = feedCommand xs ∧ xs.length = n ∧
    ∀ k, k < n → xs[k]? = some (sampleOfInt (a + k))) ∧
  (∀ (v : Int) (n : Nat), ∃ xs, feedc v n = feedCommand xs ∧ xs.length = n ∧
    ∀ k, k < n → xs[k]? = some (sampleOfInt v)) ∧
  (∀ a v : Int, feedr a 0 = .feed 0#32 [] ∧ feedc v 0 = .feed 0#32 [])

/-- R57, R58: seven lines written in the forms of the assembler stand for the commands they name; and three lines, one with
a rate out of range, one with a sample out of range and one whose operand list has a hole, stand for no command.
R57 gives the forms and the ranges; that a line outside them stands for no command, and where blanks may stand, are the
model's choices (log entry 14). -/
def Obligations.AssemblerReadsItsForms : Prop :=
  assembleLine ['C', 'F', 'G', ' ', '1', '6', '0', '0', '0'] = some [.cfg 16000#32] ∧
  assembleLine ['F', 'E', 'E', 'D', ' ', '-', '3', '2', '7', '6', '8', ',', ' ', '0', 'x', 'F', 'F', 'F', 'F'] =
    some [feedCommand [0x8000#16, 0xFFFF#16]] ∧
  assembleLine ['F', 'E', 'E', 'D'] = some [.feed 0#32 []] ∧
  assembleLine ['E', 'N', 'D', ' ', ';', ' ', 'x'] = some [.endStream] ∧
  assembleLine ['P', 'U', 'S', 'H', ' ', '7'] = some [feedCommand [7#16]] ∧
  assembleLine ['F', 'E', 'E', 'D', 'R', ' ', '-', '1', ',', ' ', '2'] = some [feedCommand [0xFFFF#16, 0#16]] ∧
  assembleLine ['F', 'E', 'E', 'D', 'C', ' ', '5', ',', ' ', '2'] = some [feedCommand [5#16, 5#16]] ∧
  assembleLine ['C', 'F', 'G', ' ', '4', '2', '9', '4', '9', '6', '7', '2', '9', '6'] = none ∧
  assembleLine ['F', 'E', 'E', 'D', ' ', '3', '2', '7', '6', '8'] = none ∧
  assembleLine ['F', 'E', 'E', 'D', ' ', '1', ',', ',', '2'] = none

/-! ### Reset -/

/-- R25: the state after reset. -/
def Obligations.ResetValues : Prop :=
  State.reset.srate = 0#32 ∧ State.reset.cap = 0 ∧ State.reset.off = 0 ∧
  (∀ i, bufRead State.reset.buf i = none) ∧ State.reset.cfgd = false ∧ State.reset.busy = false ∧
  State.reset.feed = none ∧ logicalState State.reset = .unconfigured

/-- R23, R25: the invariants hold after reset. -/
def Obligations.ResetMeetsTheInvariants : Prop := Inv State.reset

/-- R120, R121: when reset is applied, in any state, every register takes its reset value, the command in progress and
the in-flight frame are abandoned, and nothing is sent on any channel. That the parameters, the requester at hand and
the records still to come on `CMD` and `ANS` stay as they were is the model's reading (log entry 19). -/
def Obligations.ResetAbandonsEverything : Prop :=
  ∀ s : State, (nextTurn s).1 = .platform →
    ∃ t, step s = .next t ∧ SameRegisters State.reset t ∧ t.rsp = s.rsp ∧ t.snk = s.snk ∧ SameEnvironment s t

/-! ### The frame-size calculator and the lifecycle commands -/

/-- R60: the calculator on every rate, for every `CAP_MAX`. -/
def Obligations.FrameSizeCalculator : Prop :=
  ∀ (capMax : Nat) (rate : Word),
    (rate.toNat = 0 → framesize capMax rate = .reject .errRateZero) ∧
    (rate.toNat ≠ 0 ∧ rate.toNat % 100 ≠ 0 → framesize capMax rate = .reject .errRateIndiv) ∧
    (rate.toNat ≠ 0 ∧ rate.toNat % 100 = 0 ∧ rate.toNat / 100 > capMax →
      framesize capMax rate = .reject .errRateRange) ∧
    (rate.toNat ≠ 0 ∧ rate.toNat % 100 = 0 ∧ rate.toNat / 100 ≤ capMax →
      ∃ cap, framesize capMax rate = .accept cap ∧ cap = rate.toNat / 100 ∧ cap * 100 = rate.toNat ∧ 1 ≤ cap ∧
        cap ≤ capMax)

/-- R61: what `CFG` does on an idle, unconfigured block with an acceptable rate: its completion and its frame. -/
def Obligations.CfgConfigures : Prop :=
  ∀ (s : State) (rate : Word), s.busy = false → s.cfgd = false →
    rate.toNat ≠ 0 → rate.toNat % 100 = 0 → rate.toNat / 100 ≤ s.config.capMax →
    exec (.cfg rate) s = .next { s with
      srate := rate, cap := rate.toNat / 100, off := 0, buf := [], cfgd := true,
      rsp := s.rsp ++ [(s.port, [0#8, 0#8, 0#8, 0#8, 0#8])] }

/-- R61, R102 to R105, R109: the errors of `CFG` in their priority, each with one response `(code, 0)` and nothing
else changed. -/
def Obligations.CfgErrors : Prop :=
  ∀ (s : State) (rate : Word) (e : Status),
    (if s.busy then e = .errBusy
      else if s.cfgd then e = .errState
      else if rate.toNat = 0 then e = .errRateZero
      else if rate.toNat % 100 ≠ 0 then e = .errRateIndiv
      else rate.toNat / 100 > s.config.capMax ∧ e = .errRateRange) →
    exec (.cfg rate) s = .next { s with rsp := s.rsp ++ [(s.port, [statusCode e, 0#8, 0#8, 0#8, 0#8])] }

/-- R101: the values of the status codes. -/
def Obligations.StatusCodeValues : Prop :=
  statusCode .ok = 0x00#8 ∧ statusCode .errRateZero = 0x01#8 ∧ statusCode .errRateIndiv = 0x02#8 ∧
  statusCode .errRateRange = 0x03#8 ∧ statusCode .errState = 0x04#8 ∧ statusCode .errBusy = 0x05#8 ∧
  statusCode .errSink = 0x06#8 ∧ statusCode .errIllegal = 0x07#8

/-- R62: `END` on an idle, configured block leaves exactly the reset registers, sends no DELIVER and answers `OK`. -/
def Obligations.EndClosesTheStream : Prop :=
  ∀ s : State, s.busy = false → s.cfgd = true →
    exec .endStream s = .next { s with
      srate := 0#32, cap := 0, off := 0, buf := [], cfgd := false,
      rsp := s.rsp ++ [(s.port, [0#8, 0#8, 0#8, 0#8, 0#8])] }

/-- R62, R65, R70, R105, R106: `END` and every `FEED`, the empty one too, on a busy or an unconfigured block: one
response `(code, 0)` and nothing else changed. -/
def Obligations.FeedAndEndErrors : Prop :=
  ∀ (s : State) (i : Instr), (i = .endStream ∨ ∃ len payload, i = .feed len payload) →
    (s.busy = true →
      exec i s = .next { s with rsp := s.rsp ++ [(s.port, [5#8, 0#8, 0#8, 0#8, 0#8])] }) ∧
    (s.busy = false → s.cfgd = false →
      exec i s = .next { s with rsp := s.rsp ++ [(s.port, [4#8, 0#8, 0#8, 0#8, 0#8])] })

/-- R24: what every command leaves alone. No command sends a DELIVER; a `FEED` is accepted without touching the
rate, the capacity, the fill offset, any cell of the buffer or `CFGD`; `CFG` and `END` do not touch `BUSY` or a
`FEED` in progress; and at most one response is sent, after all earlier ones.
The acceptance step and the steps of the loop are separate (log entry 18). -/
def Obligations.CommandFrames : Prop :=
  ∀ (i : Instr) (s t : State), exec i s = .next t →
    SameEnvironment s t ∧ t.turns = s.turns ∧ t.snk = s.snk ∧
    (t.rsp = s.rsp ∨ ∃ rec, t.rsp = s.rsp ++ [(s.port, rec)]) ∧
    (∀ len payload, i = .feed len payload →
      t.srate = s.srate ∧ t.cap = s.cap ∧ t.off = s.off ∧ t.cfgd = s.cfgd ∧
        ∀ k, bufRead t.buf k = bufRead s.buf k) ∧
    (i = .endStream ∨ (∃ rate, i = .cfg rate) → t.busy = s.busy ∧ t.feed = s.feed)

/-! ### FEED -/

/-- R70: a `FEED` with `L >= 1` on an idle, configured block is accepted: its completion and its frame. -/
def Obligations.FeedIsAccepted : Prop :=
  ∀ (s : State) (len : Word) (payload : List Byte), s.busy = false → s.cfgd = true → 1 ≤ len.toNat →
    exec (.feed len payload) s = .next { s with
      busy := true,
      feed := some { requester := s.port, len := len.toNat, pos := 0, input := payload, phase := .copy } }

/-- R75: the empty `FEED` on a configured, idle block changes no register, sends no DELIVER and answers `OK` with
consumed 0, in state Stalled too; it is still checked, for `BUSY` and for the lifecycle state. -/
def Obligations.EmptyFeedDoesNothing : Prop :=
  decode [0x02#8, 0x00#8, 0x00#8, 0x00#8, 0x00#8] = .ok (.feed 0#32 []) ∧
  ∀ s : State,
    (s.busy = false → s.cfgd = true →
      exec (.feed 0#32 []) s = .next { s with rsp := s.rsp ++ [(s.port, [0#8, 0#8, 0#8, 0#8, 0#8])] }) ∧
    (s.busy = true →
      exec (.feed 0#32 []) s = .next { s with rsp := s.rsp ++ [(s.port, [5#8, 0#8, 0#8, 0#8, 0#8])] }) ∧
    (s.busy = false → s.cfgd = false →
      exec (.feed 0#32 []) s = .next { s with rsp := s.rsp ++ [(s.port, [4#8, 0#8, 0#8, 0#8, 0#8])] })

/-- R72, R73, R81: a step ITER whose copy does not fill the buffer. It moves `n = min(CAP - OFF, LEN - POS)` samples
from the input cursor to the fill offset, advances both, and changes nothing else; nothing is sent. -/
def Obligations.CopyWithoutFilling : Prop :=
  ∀ (s : State) (f : Feed) (n : Nat), Inv s → (nextTurn s).1 = .block → s.feed = some f → f.phase = .copy →
    f.pos < f.len → n = min (s.cap - s.off) (f.len - f.pos) → s.off + n < s.cap →
    ∃ t, step s = .next t ∧
      t.off = s.off + n ∧ t.feed = some { f with pos := f.pos + n } ∧
      (∀ k, k < n → (bufRead t.buf (s.off + k)).isSome = true ∧
        bufRead t.buf (s.off + k) = inSample f.input (f.pos + k)) ∧
      (∀ i, i < s.off ∨ s.off + n ≤ i → bufRead t.buf i = bufRead s.buf i) ∧
      t.srate = s.srate ∧ t.cap = s.cap ∧ t.cfgd = s.cfgd ∧ t.busy = s.busy ∧
      t.snk = s.snk ∧ t.rsp = s.rsp ∧ SameEnvironment s t ∧ t.turns = s.turns.tail

/-- R72, R73, R86: a step ITER whose copy fills the buffer. It copies the same way, and in the same step sends one
DELIVER with the rate and the samples of cells `0 .. CAP-1` in order, and waits. -/
def Obligations.CopyThatFillsDelivers : Prop :=
  ∀ (s : State) (f : Feed) (n : Nat), Inv s → (nextTurn s).1 = .block → s.feed = some f → f.phase = .copy →
    f.pos < f.len → n = min (s.cap - s.off) (f.len - f.pos) → s.off + n = s.cap →
    ∃ t frame, step s = .next t ∧
      t.off = s.cap ∧ t.feed = some { f with pos := f.pos + n, phase := .wait ⟨s.srate, frame⟩ } ∧
      frame.length = s.cap ∧ (∀ i, i < s.cap → frame[i]? = bufRead t.buf i) ∧
      (∀ k, k < n → bufRead t.buf (s.off + k) = inSample f.input (f.pos + k)) ∧
      (∀ i, i < s.off ∨ s.off + n ≤ i → bufRead t.buf i = bufRead s.buf i) ∧
      t.srate = s.srate ∧ t.cap = s.cap ∧ t.cfgd = s.cfgd ∧ t.busy = s.busy ∧
      t.snk = s.snk ++ [deliverRecord s.srate frame] ∧ t.rsp = s.rsp ∧ SameEnvironment s t ∧
      t.turns = s.turns.tail

/-- R74: when the whole input has been consumed the `FEED` ends with one response `OK`, consumed `LEN`, to its own
requester, and the block is Accumulating. -/
def Obligations.CompletionAnswersOk : Prop :=
  ∀ (s : State) (f : Feed), Inv s → (nextTurn s).1 = .block → s.feed = some f → f.phase = .copy → f.pos = f.len →
    ∃ t, step s = .next t ∧ t.busy = false ∧ t.feed = none ∧ logicalState t = .accumulating ∧ t.off < t.cap ∧
      t.rsp = s.rsp ++ [(f.requester, responseRecord 0x00#8 f.len)] ∧
      t.srate = s.srate ∧ t.cap = s.cap ∧ t.off = s.off ∧ t.buf = s.buf ∧ t.cfgd = s.cfgd ∧ t.snk = s.snk ∧
      SameEnvironment s t

/-- R88: on ACK the fill offset returns to 0, every cell holds no value, the `FEED` goes on with its copy, and nothing
else changes; the frame joins `EMITTED` and the block is Accumulating. -/
def Obligations.AckResetsTheOffset : Prop :=
  ∀ (s : State) (f : Feed) (fr : Frame) (rest : List Record), Inv s → AtAnswer s [0x00#8] rest → s.feed = some f →
    f.phase = .wait fr →
    ∃ t, step s = .next t ∧
      t = { s with off := 0, buf := [], feed := some { f with phase := .copy }, ans := rest, turns := s.turns.tail } ∧
      logicalState t = .accumulating ∧ ∀ g : Ghost, (g.after s t).emitted = g.emitted ++ fr.samples

/-- R89: on NAK the buffer keeps the refused frame, the `FEED` ends at once with `ERR_SINK` and consumed `POS`, its
sequencer is forgotten, nothing else changes, and the block rests Stalled. -/
def Obligations.NakEndsTheFeed : Prop :=
  ∀ (s : State) (f : Feed) (fr : Frame) (b : Record) (rest : List Record), Inv s → AtAnswer s b rest →
    b ≠ [0x00#8] → s.feed = some f → f.phase = .wait fr →
    ∃ t, step s = .next t ∧
      t = { s with
        busy := false, feed := none, ans := rest, turns := s.turns.tail,
        rsp := s.rsp ++ [(f.requester, responseRecord 0x06#8 f.pos)] } ∧
      t.off = t.cap ∧ logicalState t = .stalled

/-- R56: an answer record that arrives when no DELIVER is outstanding is ignored. -/
def Obligations.StrayAnswerIsIgnored : Prop :=
  ∀ (s : State) (b : Record) (rest : List Record), AtAnswer s b rest → waiting s = false →
    step s = .next { s with ans := rest, turns := s.turns.tail }

/-- R87, R126: as long as no answer record and no reset comes, a block that waits for the sink goes on waiting,
whatever records are presented meanwhile: no register, no cell and no sequencer field changes, no DELIVER is sent,
and every response sent is `ERR_BUSY` with consumed 0.
Whatever the schedule says (log entry 4), so long as it names no platform. -/
def Obligations.WaitEndsOnlyByAnswerOrReset : Prop :=
  ∀ (k : Nat) (s : State), waiting s = true → s.ans = [] → Agent.platform ∉ s.turns →
    ∃ t, runSteps k s = .next t ∧ SameRegisters s t ∧ t.snk = s.snk ∧ waiting t = true ∧
      ∃ more, t.rsp = s.rsp ++ more ∧ ∀ p ∈ more, p.2 = [5#8, 0#8, 0#8, 0#8, 0#8]

/-- R80: a `FEED` with `L >= 1` on a Stalled block delivers the refused frame again, unchanged, before it takes any
sample; refused again, it ends with `ERR_SINK`, consumed 0, and the block is Stalled as before.
The empty schedule is the model's choice for the duties of R123 and R130 (log entry 4). -/
def Obligations.StalledFeedDeliversAgain : Prop :=
  ∀ (s : State) (r : Nat) (xs : List Sample) (rest : List (Nat × Record)) (b : Record) (more : List Record),
    Inv s → logicalState s = .stalled → s.turns = [] → 1 ≤ xs.length → xs.length < 4294967296 →
    s.cmd = (r, encode (feedCommand xs)) :: rest → s.ans = b :: more → b ≠ [0x00#8] →
    ∃ t, runSteps 3 s = .next t ∧ SameRegisters s t ∧ logicalState t = .stalled ∧
      t.snk = s.snk ++ [deliverRecord s.srate (bufSamples s)] ∧
      t.rsp = s.rsp ++ [(r, [6#8, 0#8, 0#8, 0#8, 0#8])] ∧ t.cmd = rest ∧ t.ans = more

/-- R79: `PUSH s` from an Accumulating state. With room for more than this sample it writes the next cell and
answers; when the sample fills the buffer it delivers the frame, and on ACK the buffer is empty.
The empty schedule is the model's choice for the duties of R123 and R130 (log entry 4). -/
def Obligations.PushOneSample : Prop :=
  ∀ (s : State) (r : Nat) (v : Int) (rest : List (Nat × Record)), Inv s → logicalState s = .accumulating →
    s.busy = false → s.turns = [] → s.cmd = (r, encode (push v)) :: rest →
    (s.off + 1 < s.cap → ∃ t, runSteps 3 s = .next t ∧ t.busy = false ∧ t.off = s.off + 1 ∧
      bufSamples t = bufSamples s ++ [sampleOfInt v] ∧ t.snk = s.snk ∧
      t.rsp = s.rsp ++ [(r, [0#8, 1#8, 0#8, 0#8, 0#8])] ∧ t.cmd = rest) ∧
    (∀ more, s.off + 1 = s.cap → s.ans = [0x00#8] :: more → ∃ t, runSteps 4 s = .next t ∧ t.busy = false ∧ t.off = 0 ∧
      bufSamples t = [] ∧ t.snk = s.snk ++ [deliverRecord s.srate (bufSamples s ++ [sampleOfInt v])] ∧
      t.rsp = s.rsp ++ [(r, [0#8, 1#8, 0#8, 0#8, 0#8])] ∧ t.cmd = rest ∧ t.ans = more)

/-! ### Commands on the channel -/

/-- R106, R109: when an idle block is presented a record that decodes to `i`, the step is `exec` of `i`, in the state
with the record and its turn taken off and its requester at hand. -/
def Obligations.StepRunsTheDecodedCommand : Prop :=
  ∀ (s : State) (r : Nat) (b : Record) (rest : List (Nat × Record)) (i : Instr),
    AtRecord s r b rest → s.busy = false → decode b = .ok i → step s = exec i (presented s r rest)

/-- R106: any record, legal or not, that begins while `BUSY = 1` is answered `ERR_BUSY`, to its own requester, and
changes nothing. -/
def Obligations.BusyRejectsEveryRecord : Prop :=
  ∀ (s : State) (r : Nat) (b : Record) (rest : List (Nat × Record)), AtRecord s r b rest → s.busy = true →
    ∃ t, step s = .next t ∧ SameRegisters s t ∧ t.snk = s.snk ∧ t.cmd = rest ∧ t.ans = s.ans ∧
      t.rsp = s.rsp ++ [(r, [5#8, 0#8, 0#8, 0#8, 0#8])]

/-- R108: an illegal record on an idle block is answered `ERR_ILLEGAL`, to its own requester, and changes nothing. -/
def Obligations.IllegalRecordChangesNothing : Prop :=
  ∀ (s : State) (r : Nat) (b : Record) (rest : List (Nat × Record)) (e : Illegal), AtRecord s r b rest →
    s.busy = false → decode b = .error e →
    ∃ t, step s = .next t ∧ SameRegisters s t ∧ t.snk = s.snk ∧ t.cmd = rest ∧ t.ans = s.ans ∧
      t.rsp = s.rsp ++ [(r, [7#8, 0#8, 0#8, 0#8, 0#8])]

/-- R110: every step that sends an error response other than `ERR_SINK` changes no register, flag or cell, sends no
DELIVER, and its response says consumed 0; every step that sends `ERR_SINK` is the NAK of R89. -/
def Obligations.ErrorEntryChangesNothing : Prop :=
  ∀ (s t : State) (r : Nat) (e : Status) (n : Nat), step s = .next t →
    t.rsp = s.rsp ++ [(r, responseRecord (statusCode e) n)] → n < 4294967296 → e ≠ .ok →
    (e ≠ .errSink → SameRegisters s t ∧ t.snk = s.snk ∧ n = 0) ∧
    (e = .errSink → ∃ f, s.feed = some f ∧ s.busy = true ∧ f.phase.inflight.isSome = true ∧ r = f.requester ∧
      t.busy = false ∧ t.feed = none ∧ t.off = s.off ∧ t.buf = s.buf ∧ t.srate = s.srate ∧ t.cap = s.cap ∧
      t.cfgd = s.cfgd ∧ t.snk = s.snk ∧ BitVec.ofNat 32 n = BitVec.ofNat 32 f.pos)

/-- R53: every command record has exactly one response: outside reset, each step sends as many responses as records
have begun and have not been left with a `FEED` in progress. -/
def Obligations.OneResponsePerRecord : Prop :=
  ∀ s t : State, step s = .next t → (nextTurn s).1 ≠ .platform →
    t.rsp.length + t.cmd.length + t.busy.toNat = s.rsp.length + s.cmd.length + s.busy.toNat

/-- R109: a command record and an answer record that come together, in either order. When the answer is an ACK the
order makes no difference; when it is a NAK the record is rejected if it is handled first and checked normally if
second.
The two orders are two schedules (log entry 4). -/
def Obligations.CommandAndAnswerTogether : Prop :=
  ∀ (s : State) (r : Nat) (b a : Record) (rest : List (Nat × Record)) (more : List Record),
    waiting s = true → s.cmd = (r, b) :: rest → s.ans = a :: more →
    (a = [0x00#8] → ∃ t, runSteps 2 { s with turns := [.producer, .sink] } = .next t ∧
      runSteps 2 { s with turns := [.sink, .producer] } = .next t ∧
      t.rsp = s.rsp ++ [(r, [5#8, 0#8, 0#8, 0#8, 0#8])]) ∧
    (a ≠ [0x00#8] → ∃ f, s.feed = some f ∧
      (∃ t, runSteps 2 { s with turns := [.producer, .sink] } = .next t ∧ t.busy = false ∧
        t.rsp = s.rsp ++ [(r, [5#8, 0#8, 0#8, 0#8, 0#8]), (f.requester, responseRecord 0x06#8 f.pos)]) ∧
      runSteps 2 { s with turns := [.sink, .producer] } =
        beginRecord b { s with
          busy := false, feed := none, turns := [], cmd := rest, port := r, ans := more,
          rsp := s.rsp ++ [(f.requester, responseRecord 0x06#8 f.pos)] })

/-! ### What no step breaks -/

/-- R23: every step keeps the invariants (I1 to I3 and I5 to I7, with the widths and the canonical form of the
buffer). -/
def Obligations.StepKeepsTheInvariants : Prop :=
  ∀ s t : State, Inv s → step s = .next t → Inv t

/-- R15, R36: from a state that meets the invariants no step stops: no read of a cell without a value, no access
beyond the buffer or the input view. -/
def Obligations.NoStepStops : Prop :=
  ∀ s : State, Inv s → ∃ t, step s = .next t

/-- R76: no sample is lost, duplicated or reordered. The samples taken since the last successful `CFG` are, in order,
those of the frames answered ACK followed by those in the buffer: it holds after reset and every step keeps it so, at
rest and inside a `FEED`.
The ghost is carried outside the machine (log entry 17). -/
def Obligations.NoLossIsKept : Prop :=
  NoLoss { fed := [], emitted := [] } State.reset ∧
  ∀ (s t : State) (g : Ghost), Inv s → NoLoss g s → step s = .next t → NoLoss (g.after s t) t

/-- R5, R9: no step changes the instance's parameters. -/
def Obligations.ParametersAreFixed : Prop :=
  ∀ s t : State, step s = .next t → t.config = s.config

/-- R64: while `CFGD` is 1 the rate and the capacity do not change, and `CFG` is rejected with `ERR_STATE` whatever
its operand. -/
def Obligations.RateAndCapacityAreFixed : Prop :=
  (∀ s t : State, step s = .next t → s.cfgd = true → t.cfgd = true → t.srate = s.srate ∧ t.cap = s.cap) ∧
  (∀ (s : State) (rate : Word), s.cfgd = true → s.busy = false →
    exec (.cfg rate) s = .next { s with rsp := s.rsp ++ [(s.port, [4#8, 0#8, 0#8, 0#8, 0#8])] })

/-- R16: `CFGD` is 0 after reset, set to 1 by a successful `CFG` and by nothing else, and cleared by `END` and by
reset and by nothing else. -/
def Obligations.CfgdChangesOnlySo : Prop :=
  State.reset.cfgd = false ∧
  ∀ s t : State, step s = .next t →
    (s.cfgd = false →
      (t.cfgd = true ↔ ∃ r b rest rate cap, AtRecord s r b rest ∧ s.busy = false ∧ decode b = .ok (.cfg rate) ∧
        framesize s.config.capMax rate = .accept cap)) ∧
    (s.cfgd = true →
      (t.cfgd = false ↔ (nextTurn s).1 = .platform ∨
        ∃ r b rest, AtRecord s r b rest ∧ s.busy = false ∧ decode b = .ok .endStream))

/-- R17: `BUSY` is set only when a `FEED` with `L >= 1` is accepted, and cleared only with that `FEED`'s one response,
`OK` or `ERR_SINK`, or by reset. -/
def Obligations.BusyChangesOnlySo : Prop :=
  ∀ s t : State, step s = .next t →
    (s.busy = false → t.busy = true →
      ∃ r b rest len payload, AtRecord s r b rest ∧ s.cfgd = true ∧ decode b = .ok (.feed len payload) ∧
        1 ≤ len.toNat) ∧
    (s.busy = true → t.busy = false →
      (nextTurn s).1 = .platform ∨
        ∃ f, s.feed = some f ∧
          (t.rsp = s.rsp ++ [(f.requester, responseRecord 0x00#8 f.len)] ∨
            t.rsp = s.rsp ++ [(f.requester, responseRecord 0x06#8 f.pos)]))

/-- R92, R93: a DELIVER is sent only by the block's own step of a `FEED`, at most one a step, only when the buffer is
full; and it holds the rate and exactly `CAP = SRATE / 100` samples. -/
def Obligations.OnlyAFullBufferIsEmitted : Prop :=
  ∀ s t : State, Inv s → step s = .next t → t.snk ≠ s.snk →
    (nextTurn s).1 = .block ∧ s.busy = true ∧ t.busy = true ∧ full t = true ∧ waiting s = false ∧ waiting t = true ∧
    ∃ frame : List Sample, t.snk = s.snk ++ [deliverRecord s.srate frame] ∧ frame.length = s.srate.toNat / 100 ∧
      (deliverRecord s.srate frame).length = 4 + 2 * s.cap ∧ (deliverRecord s.srate frame).take 4 = le32 s.srate ∧
      bufRun t.buf 0 t.cap = some frame

/-- R41: the payload of a `FEED` in progress never changes, nor its length or its requester, and its cursor only
moves forward. -/
def Obligations.PayloadIsCaptured : Prop :=
  ∀ (s t : State) (f g : Feed), Inv s → step s = .next t → s.feed = some f → t.feed = some g →
    g.input = f.input ∧ g.len = f.len ∧ g.requester = f.requester ∧ f.pos ≤ g.pos ∧ g.pos ≤ g.len

/-- R19, R23 I4: the block comes to rest Stalled only by a refused delivery, which it reports as `ERR_SINK`. -/
def Obligations.StalledOnlyByRefusal : Prop :=
  ∀ s t : State, Inv s → step s = .next t → logicalState s ≠ .stalled → logicalState t = .stalled →
    ∃ f fr b rest, AtAnswer s b rest ∧ b ≠ [0x00#8] ∧ s.feed = some f ∧ f.phase = .wait fr ∧
      t.rsp = s.rsp ++ [(f.requester, responseRecord 0x06#8 f.pos)]

/-- R19, R63: from each logical state, the logical states one step can lead to. The statement is about these edges alone and
names no event: CfgdChangesOnlySo, OnlyAFullBufferIsEmitted, StalledOnlyByRefusal and AckResetsTheOffset say by which
events some of them are taken. -/
def Obligations.LifecycleGraph : Prop :=
  ∀ s t : State, Inv s → step s = .next t →
    (logicalState s = .unconfigured → logicalState t = .unconfigured ∨ logicalState t = .accumulating) ∧
    (logicalState s = .accumulating →
      logicalState t = .accumulating ∨ logicalState t = .transientlyFull ∨ logicalState t = .unconfigured) ∧
    (logicalState s = .transientlyFull →
      logicalState t = .transientlyFull ∨ logicalState t = .accumulating ∨ logicalState t = .stalled ∨
        logicalState t = .unconfigured) ∧
    (logicalState s = .stalled →
      logicalState t = .stalled ∨ logicalState t = .transientlyFull ∨ logicalState t = .unconfigured)

/-- R5, R21, R140: every register fits its width, and no addition or subtraction of the copy step carries or
borrows.
That the model holds these registers as numbers, bounded by the invariants, is its choice (log entry 2). -/
def Obligations.RegistersFitTheirWidths : Prop :=
  ∀ s : State, Inv s →
    s.config.capMax < 2 ^ s.config.capw ∧ s.cap < 2 ^ s.config.capw ∧ s.off < 2 ^ s.config.capw ∧
    room s + s.off = s.cap ∧
    ∀ f, s.feed = some f → f.len < 2 ^ 32 ∧ f.pos < 2 ^ 32 ∧ (f.len - f.pos) + f.pos = f.len ∧
      s.off + copyCount f s ≤ s.cap ∧ f.pos + copyCount f s ≤ f.len

/-- R132: a state with `BUSY = 1` is never final: either a DELIVER is outstanding, or the block's own step is enabled
and changes the state. -/
def Obligations.BusyIsNeverFinal : Prop :=
  ∀ s : State, Inv s → s.busy = true →
    waiting s = true ∨ ∃ t, ownStep s = .next t ∧ t ≠ s

/-- R116: a step of an error-free operation sends no response but `OK`: the record presented, if there is one, is well
formed, comes while the block is idle, follows the lifecycle and carries an acceptable rate, and the answer
presented, if there is one, is ACK. -/
def Obligations.ErrorFreeOperation : Prop :=
  ∀ s t : State, Inv s → step s = .next t →
    (∀ r b rest, AtRecord s r b rest → s.busy = false ∧
      ((∃ rate cap, decode b = .ok (.cfg rate) ∧ s.cfgd = false ∧ framesize s.config.capMax rate = .accept cap) ∨
        (s.cfgd = true ∧ (decode b = .ok .endStream ∨ ∃ len payload, decode b = .ok (.feed len payload))))) →
    (∀ b rest, AtAnswer s b rest → b = [0x00#8]) →
    t.rsp = s.rsp ∨ ∃ r n, t.rsp = s.rsp ++ [(r, responseRecord 0x00#8 n)]

/-- R115: instances share nothing: a step of one leaves every other as it was, and is the step it would take alone.
The product is log entry 15. -/
def Obligations.InstancesAreIndependent : Prop :=
  ∀ (k : Nat) (ss : List State) (s t : State), ss[k]? = some s → step s = .next t →
    ∃ ts, stepInstance k ss = .next ts ∧ ts.length = ss.length ∧ ts[k]? = some t ∧
      ∀ j, j ≠ k → ts[j]? = ss[j]?

/-! ### Whole FEEDs -/

/-- R77, first form, with R71's bound on the loop: a `FEED` of `L >= 1` samples whose every DELIVER is answered ACK.
`S` is the buffer's samples followed by the payload's.
The empty schedule is the model's choice for the duties of R123 and R130 (log entry 4). -/
def Obligations.FeedClosedFormAccepted : Prop :=
  ∀ (s : State) (r : Nat) (xs stream : List Sample) (k : Nat) (rest : List (Nat × Record)) (more : List Record),
    Inv s → s.busy = false → s.cfgd = true → s.turns = [] → 1 ≤ xs.length → xs.length < 4294967296 →
    s.cmd = (r, encode (feedCommand xs)) :: rest → stream = bufSamples s ++ xs →
    k = (s.off + xs.length) / s.cap → s.ans = List.replicate k [0x00#8] ++ more →
    ∃ n t, n ≤ 2 * (1 + xs.length) + 2 ∧ runSteps n s = .next t ∧
      t.busy = false ∧ t.feed = none ∧ t.cmd = rest ∧ t.ans = more ∧
      t.snk = s.snk ++ frameRecords s.srate s.cap stream k ∧
      t.off = (s.off + xs.length) % s.cap ∧ bufSamples t = stream.drop (k * s.cap) ∧
      t.rsp = s.rsp ++ [(r, responseRecord 0x00#8 xs.length)] ∧
      t.srate = s.srate ∧ t.cap = s.cap ∧ t.cfgd = true

/-- R77, second form: the `m`-th DELIVER is the first answered NAK. The frames before it were delivered and accepted,
it was sent and refused and stays in the buffer, and `consumed = m*CAP - o`.
The empty schedule is the model's choice for the duties of R123 and R130 (log entry 4). -/
def Obligations.FeedClosedFormRefused : Prop :=
  ∀ (s : State) (r : Nat) (xs stream : List Sample) (m : Nat) (rest : List (Nat × Record)) (a : Record)
    (more : List Record),
    Inv s → s.busy = false → s.cfgd = true → s.turns = [] → 1 ≤ xs.length → xs.length < 4294967296 →
    s.cmd = (r, encode (feedCommand xs)) :: rest → stream = bufSamples s ++ xs →
    1 ≤ m → m ≤ (s.off + xs.length) / s.cap → a ≠ [0x00#8] →
    s.ans = List.replicate (m - 1) [0x00#8] ++ a :: more →
    ∃ n t, n ≤ 2 * (1 + xs.length) + 2 ∧ runSteps n s = .next t ∧
      logicalState t = .stalled ∧ t.cmd = rest ∧ t.ans = more ∧
      t.snk = s.snk ++ frameRecords s.srate s.cap stream m ∧
      t.off = s.cap ∧ bufSamples t = frameAt s.cap stream (m - 1) ∧
      t.rsp = s.rsp ++ [(r, responseRecord 0x06#8 (m * s.cap - s.off))]

/-- R78: chunking invariance. A sequence of samples fed as one `FEED` and as any number of `FEED`s of its pieces,
empty pieces allowed, gives the same DELIVER records, byte for byte, and the same final `OFF` and buffer, when
every DELIVER is answered ACK.
The empty schedule is the model's choice for the duties of R123 and R130 (log entry 4). -/
def Obligations.ChunkingInvariance : Prop :=
  ∀ (s : State) (r k : Nat) (pieces : List (List Sample)),
    Inv s → s.busy = false → s.cfgd = true → s.turns = [] → pieces.flatten.length < 4294967296 →
    (s.off + pieces.flatten.length) / s.cap ≤ k → s.ans = List.replicate k [0x00#8] →
    ∃ n1 n2 t1 t2,
      runSteps n1 { s with cmd := [(r, encode (feedCommand pieces.flatten))] } = .next t1 ∧
      runSteps n2 { s with cmd := pieces.map (fun p => (r, encode (feedCommand p))) } = .next t2 ∧
      Quiescent t1 ∧ Quiescent t2 ∧ t1.cmd = [] ∧ t2.cmd = [] ∧
      t1.snk = t2.snk ∧ t1.off = t2.off ∧ t1.buf = t2.buf ∧ t1.ans = t2.ans
end

