-- ==== Sys2Proof/Laws/Memory.lean ====
section
/-! SUPPORT. The frame buffer: a read after a write, the canonical form, and the runs of the copy and flush steps. -/

namespace Sys2Proof.Machine

/-- A cell reads as the sample last written to it; every other cell reads as before. -/
theorem bufRead_bufWrite (m : Memory) (i j : Nat) (v : Sample) (hm : Memory.wf m = true) :
    bufRead (bufWrite m i v) j = if j = i then some v else bufRead m j := by
  induction m with
  | nil => simp [bufWrite, bufRead]
  | cons c rest ih =>
    obtain ⟨k, w⟩ := c
    simp only [Memory.wf, Bool.and_eq_true] at hm
    simp only [bufWrite]
    split
    · simp [bufRead]
    · split
      · subst_vars; simp only [bufRead]; split <;> rfl
      · simp only [bufRead, ih hm.2]
        split <;> split <;> first | rfl | omega

/-- What the first cell of a written buffer is, as the canonical form asks it. -/
theorem head_bufWrite (m : Memory) (i : Nat) (v : Sample) :
    ∀ p ∈ (bufWrite m i v).head?, p.1 = i ∨ (∃ q ∈ m.head?, p.1 = q.1) := by
  intro p hp
  cases m with
  | nil => simp [bufWrite] at hp; simp [← hp]
  | cons c rest =>
    obtain ⟨k, w⟩ := c
    simp only [bufWrite] at hp
    split at hp
    · simp at hp; simp [← hp]
    · split at hp <;> simp at hp <;> simp [← hp]

theorem wf_cons_iff (i : Nat) (v : Sample) (rest : Memory) :
    Memory.wf ((i, v) :: rest) = true ↔ (∀ p ∈ rest.head?, i < p.1) ∧ Memory.wf rest = true := by
  cases rest with
  | nil => simp [Memory.wf]
  | cons c rest => simp [Memory.wf]

/-- Every write keeps the canonical form. -/
theorem wf_bufWrite (m : Memory) (i : Nat) (v : Sample) (hm : Memory.wf m = true) :
    Memory.wf (bufWrite m i v) = true := by
  induction m with
  | nil => simp [bufWrite, Memory.wf]
  | cons c rest ih =>
    obtain ⟨k, w⟩ := c
    have hm' := (wf_cons_iff k w rest).1 hm
    simp only [bufWrite]
    split
    · rename_i h
      exact (wf_cons_iff i v _).2 ⟨by simpa using h, hm⟩
    · split
      · subst_vars
        exact (wf_cons_iff _ v rest).2 hm'
      · refine (wf_cons_iff k w _).2 ⟨?_, ih hm'.2⟩
        intro p hp
        rcases head_bufWrite rest i v p hp with h | ⟨q, hq, h⟩
        · omega
        · have := hm'.1 q hq; omega

/-- The copy of a run keeps the canonical form. -/
theorem wf_bufWriteRun (depth : Nat) (xs : List Sample) (m m' : Memory) (a : Nat) (hm : Memory.wf m = true)
    (h : bufWriteRun depth m a xs = some m') : Memory.wf m' = true := by
  induction xs generalizing m a with
  | nil => simp [bufWriteRun] at h; exact h ▸ hm
  | cons x xs ih =>
    simp only [bufWriteRun] at h
    split at h
    · exact ih _ _ (wf_bufWrite m a x hm) h
    · cases h

/-- After the copy of a run, cell `a + k` holds sample `k` of the run and every other cell is unchanged (R35). -/
theorem bufRead_bufWriteRun (depth : Nat) (xs : List Sample) (m m' : Memory) (a i : Nat) (hm : Memory.wf m = true)
    (h : bufWriteRun depth m a xs = some m') :
    bufRead m' i = if a ≤ i ∧ i < a + xs.length then xs[i - a]? else bufRead m i := by
  induction xs generalizing m a with
  | nil => simp [bufWriteRun] at h; simp [h]
  | cons x xs ih =>
    simp only [bufWriteRun] at h
    split at h
    · rw [ih _ _ (wf_bufWrite m a x hm) h, bufRead_bufWrite m a i x hm]
      simp only [List.length_cons]
      by_cases h1 : i = a
      · subst h1
        simp
      · by_cases h2 : a + 1 ≤ i ∧ i < a + 1 + xs.length
        · have e : i - a = (i - (a + 1)) + 1 := by omega
          rw [if_pos h2, if_pos (by omega), e, List.getElem?_cons_succ]
        · rw [if_neg h2, if_neg h1, if_neg (by omega)]
    · cases h

/-- A buffer whose cells are exactly `0 .. n-1` is written at cell `n` by appending. -/
theorem bufWrite_append (m : Memory) (b n : Nat) (v : Sample) (h : m.map Prod.fst = List.range' b n) :
    bufWrite m (b + n) v = m ++ [(b + n, v)] := by
  induction m generalizing b n with
  | nil => rfl
  | cons c rest ih =>
    obtain ⟨k, w⟩ := c
    cases n with
    | zero => simp at h
    | succ n =>
      simp only [List.map_cons, List.range'_succ, List.cons.injEq] at h
      obtain ⟨rfl, h⟩ := h
      have := ih (k + 1) n h
      rw [show k + (n + 1) = k + 1 + n by omega]
      simp only [bufWrite, List.cons_append]
      rw [if_neg (by omega), if_neg (by omega), this]

/-- The copy of a run to the first free cell of a buffer whose cells are exactly `0 .. off-1`: it succeeds within
the physical depth, appends the run, and the cells are then `0 .. off+n-1` (R35, R36). -/
theorem bufWriteRun_append (depth : Nat) (xs : List Sample) (m : Memory) (off : Nat)
    (hc : m.map Prod.fst = List.range off) (hd : off + xs.length ≤ depth) :
    ∃ m', bufWriteRun depth m off xs = some m' ∧ m'.map Prod.fst = List.range (off + xs.length) ∧
      m'.map Prod.snd = m.map Prod.snd ++ xs := by
  induction xs generalizing m off with
  | nil => exact ⟨m, rfl, by simpa using hc, by simp⟩
  | cons x xs ih =>
    simp only [List.length_cons] at hd
    have hw : bufWrite m off x = m ++ [(off, x)] := by
      have := bufWrite_append m 0 off x (by rw [hc, List.range_eq_range'])
      simpa using this
    obtain ⟨m', h1, h2, h3⟩ := ih (bufWrite m off x) (off + 1)
      (by rw [hw, List.map_append, hc, List.range_succ]; rfl) (by omega)
    refine ⟨m', ?_, ?_, ?_⟩
    · simp only [bufWriteRun]; rw [if_pos (by omega)]; exact h1
    · rw [h2]; congr 1; simp only [List.length_cons]; omega
    · rw [h3, hw]; simp

theorem bufRead_cons_ne (k i : Nat) (w : Sample) (m : Memory) (h : i ≠ k) : bufRead ((k, w) :: m) i = bufRead m i := by
  simp [bufRead, h]

/-- Reading on from above the first listed cell skips it. -/
theorem bufRun_cons_of_lt (k : Nat) (w : Sample) (m : Memory) (i n : Nat) (h : k < i) :
    bufRun ((k, w) :: m) i n = bufRun m i n := by
  induction n generalizing i with
  | zero => rfl
  | succ n ih => simp only [bufRun]; rw [bufRead_cons_ne k i w m (by omega), ih (i + 1) (by omega)]

theorem bufRun_of_range' (m : Memory) (b n : Nat) (h : m.map Prod.fst = List.range' b n) :
    bufRun m b n = some (m.map Prod.snd) := by
  induction m generalizing b n with
  | nil => cases n <;> simp_all [bufRun]
  | cons c rest ih =>
    obtain ⟨k, w⟩ := c
    cases n with
    | zero => simp at h
    | succ n =>
      simp only [List.map_cons, List.range'_succ, List.cons.injEq] at h
      obtain ⟨rfl, h⟩ := h
      simp only [bufRun]
      rw [bufRun_cons_of_lt k w rest (k + 1) n (by omega), ih (k + 1) n h]
      simp [bufRead]

/-- The flush step reads the whole of a buffer whose cells are exactly `0 .. n-1` (R86). -/
theorem bufRun_of_range (m : Memory) (n : Nat) (h : m.map Prod.fst = List.range n) :
    bufRun m 0 n = some (m.map Prod.snd) :=
  bufRun_of_range' m 0 n (by rw [h, List.range_eq_range'])

theorem bufRun_length (m : Memory) (i n : Nat) (xs : List Sample) (h : bufRun m i n = some xs) : xs.length = n := by
  induction n generalizing i xs with
  | zero => simp [bufRun] at h; simp [h]
  | succ n ih =>
    simp only [bufRun] at h
    split at h
    · rename_i y ys _ hr
      cases h
      simp [ih _ _ hr]
    · cases h

theorem bufRead_isSome_of_range' (m : Memory) (b n i : Nat) (h : m.map Prod.fst = List.range' b n) :
    (bufRead m i).isSome = true ↔ b ≤ i ∧ i < b + n := by
  induction m generalizing b n with
  | nil => cases n <;> simp_all [bufRead]
  | cons c rest ih =>
    obtain ⟨k, w⟩ := c
    cases n with
    | zero => simp at h
    | succ n =>
      simp only [List.map_cons, List.range'_succ, List.cons.injEq] at h
      obtain ⟨rfl, h⟩ := h
      by_cases hi : i = k
      · subst hi; simp [bufRead]
      · rw [bufRead_cons_ne k i w rest hi, ih (k + 1) n h]; omega

/-- A buffer whose cells are exactly `0 .. n-1` holds a value at `i` exactly when `i < n` (R15). -/
theorem bufRead_isSome_of_range (m : Memory) (n i : Nat) (h : m.map Prod.fst = List.range n) :
    (bufRead m i).isSome = true ↔ i < n := by
  rw [bufRead_isSome_of_range' m 0 n i (by rw [h, List.range_eq_range'])]; omega

end Sys2Proof.Machine
end

