-- ==== Sys2Proof/Laws/Operands.lean ====
section
/-! SUPPORT. The little-endian operand forms are inverse to each other, the lengths of the record layouts, and the
reads of the input view. -/

namespace Sys2Proof.Machine

theorem u32le_toNat (b1 b2 b3 b4 : Byte) :
    (u32le b1 b2 b3 b4).toNat = b1.toNat + 256 * b2.toNat + 65536 * b3.toNat + 16777216 * b4.toNat := by
  have h1 := b1.isLt
  have h2 := b2.isLt
  have h3 := b3.isLt
  have h4 := b4.isLt
  simp only [u32le, BitVec.toNat_ofNat]
  omega

/-- Reading the bytes of a word gives the word. -/
theorem u32le_of_le32 (v : Word) :
    u32le (BitVec.ofNat 8 v.toNat) (BitVec.ofNat 8 (v.toNat / 256)) (BitVec.ofNat 8 (v.toNat / 65536))
      (BitVec.ofNat 8 (v.toNat / 16777216)) = v := by
  apply BitVec.eq_of_toNat_eq
  have h := v.isLt
  rw [u32le_toNat]
  simp only [BitVec.toNat_ofNat]
  omega

/-- The bytes of the word that four bytes write are those bytes. -/
theorem le32_u32le (b1 b2 b3 b4 : Byte) : le32 (u32le b1 b2 b3 b4) = [b1, b2, b3, b4] := by
  have h1 := b1.isLt
  have h2 := b2.isLt
  have h3 := b3.isLt
  have h4 := b4.isLt
  simp only [le32, u32le_toNat, List.cons.injEq, and_true]
  refine ⟨?_, ?_, ?_, ?_⟩ <;> apply BitVec.eq_of_toNat_eq <;> simp only [BitVec.toNat_ofNat] <;> omega

theorem le32_length (v : Word) : (le32 v).length = 4 := rfl

theorem s16le_toNat (lo hi : Byte) : (s16le lo hi).toNat = lo.toNat + 256 * hi.toNat := by
  have h1 := lo.isLt
  have h2 := hi.isLt
  simp only [s16le, BitVec.toNat_ofNat]
  omega

/-- Reading the two bytes of a sample gives the sample. -/
theorem s16le_of_le16 (x : Sample) : s16le (BitVec.ofNat 8 x.toNat) (BitVec.ofNat 8 (x.toNat / 256)) = x := by
  apply BitVec.eq_of_toNat_eq
  have h := x.isLt
  rw [s16le_toNat]
  simp only [BitVec.toNat_ofNat]
  omega

theorem samplesBytes_length (xs : List Sample) : (samplesBytes xs).length = 2 * xs.length := by
  induction xs with
  | nil => rfl
  | cons x xs ih => simp [samplesBytes, le16, ih]; omega

theorem samplesBytes_append (xs ys : List Sample) :
    samplesBytes (xs ++ ys) = samplesBytes xs ++ samplesBytes ys := by
  induction xs with
  | nil => rfl
  | cons x xs ih => simp [samplesBytes, ih]

/-- Every view of `2*n` bytes is the bytes of `n` samples. -/
theorem exists_samples_of_length (n : Nat) :
    ∀ input : List Byte, input.length = 2 * n → ∃ xs : List Sample, xs.length = n ∧ samplesBytes xs = input := by
  induction n with
  | zero =>
    intro input h
    exact ⟨[], rfl, (List.eq_nil_of_length_eq_zero (by omega)).symm⟩
  | succ n ih =>
    intro input h
    match input, h with
    | lo :: hi :: rest, h =>
      obtain ⟨xs, hl, hb⟩ := ih rest (by simp at h; omega)
      refine ⟨s16le lo hi :: xs, by simp [hl], ?_⟩
      have h1 := lo.isLt
      have h2 := hi.isLt
      have e1 : BitVec.ofNat 8 (s16le lo hi).toNat = lo := by
        apply BitVec.eq_of_toNat_eq; rw [s16le_toNat]; simp only [BitVec.toNat_ofNat]; omega
      have e2 : BitVec.ofNat 8 ((s16le lo hi).toNat / 256) = hi := by
        apply BitVec.eq_of_toNat_eq; rw [s16le_toNat]; simp only [BitVec.toNat_ofNat]; omega
      simp [samplesBytes, le16, e1, e2, hb]
    | [_], h => simp at h; omega
    | [], h => simp at h

/-- Sample `i` of the view that holds the samples `xs` is `xs[i]` (R31). -/
theorem inSample_samplesBytes (xs : List Sample) (i : Nat) : inSample (samplesBytes xs) i = xs[i]? := by
  induction xs generalizing i with
  | nil => simp [inSample, memReadIn, samplesBytes]
  | cons x xs ih =>
    cases i with
    | zero => simpa [inSample, memReadIn, samplesBytes, le16] using s16le_of_le16 x
    | succ i =>
      rw [List.getElem?_cons_succ, ← ih i]
      have e1 : 2 * (i + 1) = 2 * i + 1 + 1 := by omega
      simp [inSample, memReadIn, samplesBytes, le16, e1]

/-- The reads of one copy step give the samples of the payload from the input cursor on (R35). -/
theorem inRun_samplesBytes (xs : List Sample) (pos n : Nat) (h : pos + n ≤ xs.length) :
    inRun (samplesBytes xs) pos n = some ((xs.drop pos).take n) := by
  induction n generalizing pos with
  | zero => simp [inRun]
  | succ n ih =>
    have hp : pos < xs.length := by omega
    rw [inRun, inSample_samplesBytes, ih (pos + 1) (by omega), List.getElem?_eq_getElem hp,
      List.drop_eq_getElem_cons hp, List.take_succ_cons]

/-- A copy step reads as many samples as it asks for, and never beyond the view (R36). -/
theorem inRun_isSome (input : List Byte) (pos n : Nat) (h : 2 * (pos + n) ≤ input.length) :
    ∃ xs, inRun input pos n = some xs ∧ xs.length = n := by
  induction n generalizing pos with
  | zero => exact ⟨[], rfl, rfl⟩
  | succ n ih =>
    obtain ⟨xs, hx, hl⟩ := ih (pos + 1) (by omega)
    have e1 : 2 * pos < input.length := by omega
    have e2 : 2 * pos + 1 < input.length := by omega
    exact ⟨s16le input[2 * pos] input[2 * pos + 1] :: xs, by simp [inRun, inSample, memReadIn, e1, e2, hx], by simp [hl]⟩

theorem inRun_length (input : List Byte) (pos n : Nat) (xs : List Sample) (h : inRun input pos n = some xs) :
    xs.length = n := by
  induction n generalizing pos xs with
  | zero => simp [inRun] at h; simp [h]
  | succ n ih =>
    simp only [inRun] at h
    split at h
    · rename_i y ys _ hr
      cases h
      simp [ih _ _ hr]
    · cases h

theorem deliverRecord_length (rate : Word) (xs : List Sample) : (deliverRecord rate xs).length = 4 + 2 * xs.length := by
  simp [deliverRecord, le32, samplesBytes_length]; omega

theorem responseRecord_length (code : Byte) (n : Nat) : (responseRecord code n).length = 5 := rfl

end Sys2Proof.Machine
end

