-- ==== Sys2Proof/Laws/PerInstr.lean ====
section
/-! SUPPORT. One lemma per command: the record of a well-formed command has the length R49 gives it. -/

namespace Sys2Proof.Laws.RecordLength

/-- R49: the record length of the command. -/
def Statement (i : Instr) : Prop := i.wf = true → (encode i).length = recordLength i

theorem cfg (rate : Word) : Statement (.cfg rate) := fun _ => rfl

theorem feed (len : Word) (payload : List Byte) : Statement (.feed len payload) := by
  intro h
  simp only [Instr.wf, decide_eq_true_eq] at h
  simp only [encode, recordLength, List.length_cons, List.length_append, Machine.le32_length, h]
  omega

theorem endStream : Statement .endStream := fun _ => rfl

end Sys2Proof.Laws.RecordLength
end

