-- ==== Sys2Proof/Laws/State.lean ====
section
/-! SUPPORT. What each update of the state leaves in each field, so that no proof unfolds a record update. -/

namespace Sys2Proof.Machine

@[simp] theorem respond_config (r : Nat) (st : Status) (n : Nat) (s : State) : (respond r st n s).config = s.config := rfl
@[simp] theorem respond_srate (r : Nat) (st : Status) (n : Nat) (s : State) : (respond r st n s).srate = s.srate := rfl
@[simp] theorem respond_cap (r : Nat) (st : Status) (n : Nat) (s : State) : (respond r st n s).cap = s.cap := rfl
@[simp] theorem respond_off (r : Nat) (st : Status) (n : Nat) (s : State) : (respond r st n s).off = s.off := rfl
@[simp] theorem respond_buf (r : Nat) (st : Status) (n : Nat) (s : State) : (respond r st n s).buf = s.buf := rfl
@[simp] theorem respond_cfgd (r : Nat) (st : Status) (n : Nat) (s : State) : (respond r st n s).cfgd = s.cfgd := rfl
@[simp] theorem respond_busy (r : Nat) (st : Status) (n : Nat) (s : State) : (respond r st n s).busy = s.busy := rfl
@[simp] theorem respond_feed (r : Nat) (st : Status) (n : Nat) (s : State) : (respond r st n s).feed = s.feed := rfl
@[simp] theorem respond_port (r : Nat) (st : Status) (n : Nat) (s : State) : (respond r st n s).port = s.port := rfl
@[simp] theorem respond_cmd (r : Nat) (st : Status) (n : Nat) (s : State) : (respond r st n s).cmd = s.cmd := rfl
@[simp] theorem respond_ans (r : Nat) (st : Status) (n : Nat) (s : State) : (respond r st n s).ans = s.ans := rfl
@[simp] theorem respond_rsp (r : Nat) (st : Status) (n : Nat) (s : State) : (respond r st n s).rsp = s.rsp ++ [(r, responseRecord (statusCode st) n)] := rfl
@[simp] theorem respond_snk (r : Nat) (st : Status) (n : Nat) (s : State) : (respond r st n s).snk = s.snk := rfl
@[simp] theorem respond_turns (r : Nat) (st : Status) (n : Nat) (s : State) : (respond r st n s).turns = s.turns := rfl

@[simp] theorem raise_config (e : Status) (s : State) : (raise e s).config = s.config := rfl
@[simp] theorem raise_srate (e : Status) (s : State) : (raise e s).srate = s.srate := rfl
@[simp] theorem raise_cap (e : Status) (s : State) : (raise e s).cap = s.cap := rfl
@[simp] theorem raise_off (e : Status) (s : State) : (raise e s).off = s.off := rfl
@[simp] theorem raise_buf (e : Status) (s : State) : (raise e s).buf = s.buf := rfl
@[simp] theorem raise_cfgd (e : Status) (s : State) : (raise e s).cfgd = s.cfgd := rfl
@[simp] theorem raise_busy (e : Status) (s : State) : (raise e s).busy = s.busy := rfl
@[simp] theorem raise_feed (e : Status) (s : State) : (raise e s).feed = s.feed := rfl
@[simp] theorem raise_port (e : Status) (s : State) : (raise e s).port = s.port := rfl
@[simp] theorem raise_cmd (e : Status) (s : State) : (raise e s).cmd = s.cmd := rfl
@[simp] theorem raise_ans (e : Status) (s : State) : (raise e s).ans = s.ans := rfl
@[simp] theorem raise_rsp (e : Status) (s : State) : (raise e s).rsp = s.rsp ++ [(s.port, responseRecord (statusCode e) 0)] := rfl
@[simp] theorem raise_snk (e : Status) (s : State) : (raise e s).snk = s.snk := rfl
@[simp] theorem raise_turns (e : Status) (s : State) : (raise e s).turns = s.turns := rfl

@[simp] theorem deliver_config (fr : Frame) (s : State) : (deliver fr s).config = s.config := rfl
@[simp] theorem deliver_srate (fr : Frame) (s : State) : (deliver fr s).srate = s.srate := rfl
@[simp] theorem deliver_cap (fr : Frame) (s : State) : (deliver fr s).cap = s.cap := rfl
@[simp] theorem deliver_off (fr : Frame) (s : State) : (deliver fr s).off = s.off := rfl
@[simp] theorem deliver_buf (fr : Frame) (s : State) : (deliver fr s).buf = s.buf := rfl
@[simp] theorem deliver_cfgd (fr : Frame) (s : State) : (deliver fr s).cfgd = s.cfgd := rfl
@[simp] theorem deliver_busy (fr : Frame) (s : State) : (deliver fr s).busy = s.busy := rfl
@[simp] theorem deliver_feed (fr : Frame) (s : State) : (deliver fr s).feed = s.feed := rfl
@[simp] theorem deliver_port (fr : Frame) (s : State) : (deliver fr s).port = s.port := rfl
@[simp] theorem deliver_cmd (fr : Frame) (s : State) : (deliver fr s).cmd = s.cmd := rfl
@[simp] theorem deliver_ans (fr : Frame) (s : State) : (deliver fr s).ans = s.ans := rfl
@[simp] theorem deliver_rsp (fr : Frame) (s : State) : (deliver fr s).rsp = s.rsp := rfl
@[simp] theorem deliver_snk (fr : Frame) (s : State) : (deliver fr s).snk = s.snk ++ [deliverRecord fr.rate fr.samples] := rfl
@[simp] theorem deliver_turns (fr : Frame) (s : State) : (deliver fr s).turns = s.turns := rfl

@[simp] theorem clearRegisters_config (s : State) : (clearRegisters s).config = s.config := rfl
@[simp] theorem clearRegisters_srate (s : State) : (clearRegisters s).srate = 0#32 := rfl
@[simp] theorem clearRegisters_cap (s : State) : (clearRegisters s).cap = 0 := rfl
@[simp] theorem clearRegisters_off (s : State) : (clearRegisters s).off = 0 := rfl
@[simp] theorem clearRegisters_buf (s : State) : (clearRegisters s).buf = [] := rfl
@[simp] theorem clearRegisters_cfgd (s : State) : (clearRegisters s).cfgd = false := rfl
@[simp] theorem clearRegisters_busy (s : State) : (clearRegisters s).busy = s.busy := rfl
@[simp] theorem clearRegisters_feed (s : State) : (clearRegisters s).feed = s.feed := rfl
@[simp] theorem clearRegisters_port (s : State) : (clearRegisters s).port = s.port := rfl
@[simp] theorem clearRegisters_cmd (s : State) : (clearRegisters s).cmd = s.cmd := rfl
@[simp] theorem clearRegisters_ans (s : State) : (clearRegisters s).ans = s.ans := rfl
@[simp] theorem clearRegisters_rsp (s : State) : (clearRegisters s).rsp = s.rsp := rfl
@[simp] theorem clearRegisters_snk (s : State) : (clearRegisters s).snk = s.snk := rfl
@[simp] theorem clearRegisters_turns (s : State) : (clearRegisters s).turns = s.turns := rfl

@[simp] theorem applyReset_config (s : State) : (applyReset s).config = s.config := rfl
@[simp] theorem applyReset_srate (s : State) : (applyReset s).srate = 0#32 := rfl
@[simp] theorem applyReset_cap (s : State) : (applyReset s).cap = 0 := rfl
@[simp] theorem applyReset_off (s : State) : (applyReset s).off = 0 := rfl
@[simp] theorem applyReset_buf (s : State) : (applyReset s).buf = [] := rfl
@[simp] theorem applyReset_cfgd (s : State) : (applyReset s).cfgd = false := rfl
@[simp] theorem applyReset_busy (s : State) : (applyReset s).busy = false := rfl
@[simp] theorem applyReset_feed (s : State) : (applyReset s).feed = none := rfl
@[simp] theorem applyReset_port (s : State) : (applyReset s).port = s.port := rfl
@[simp] theorem applyReset_cmd (s : State) : (applyReset s).cmd = s.cmd := rfl
@[simp] theorem applyReset_ans (s : State) : (applyReset s).ans = s.ans := rfl
@[simp] theorem applyReset_rsp (s : State) : (applyReset s).rsp = s.rsp := rfl
@[simp] theorem applyReset_snk (s : State) : (applyReset s).snk = s.snk := rfl
@[simp] theorem applyReset_turns (s : State) : (applyReset s).turns = s.turns := rfl

@[simp] theorem configure_config (rate : Word) (c : Nat) (s : State) : (configure rate c s).config = s.config := rfl
@[simp] theorem configure_srate (rate : Word) (c : Nat) (s : State) : (configure rate c s).srate = rate := rfl
@[simp] theorem configure_cap (rate : Word) (c : Nat) (s : State) : (configure rate c s).cap = c := rfl
@[simp] theorem configure_off (rate : Word) (c : Nat) (s : State) : (configure rate c s).off = 0 := rfl
@[simp] theorem configure_buf (rate : Word) (c : Nat) (s : State) : (configure rate c s).buf = [] := rfl
@[simp] theorem configure_cfgd (rate : Word) (c : Nat) (s : State) : (configure rate c s).cfgd = true := rfl
@[simp] theorem configure_busy (rate : Word) (c : Nat) (s : State) : (configure rate c s).busy = s.busy := rfl
@[simp] theorem configure_feed (rate : Word) (c : Nat) (s : State) : (configure rate c s).feed = s.feed := rfl
@[simp] theorem configure_port (rate : Word) (c : Nat) (s : State) : (configure rate c s).port = s.port := rfl
@[simp] theorem configure_cmd (rate : Word) (c : Nat) (s : State) : (configure rate c s).cmd = s.cmd := rfl
@[simp] theorem configure_ans (rate : Word) (c : Nat) (s : State) : (configure rate c s).ans = s.ans := rfl
@[simp] theorem configure_rsp (rate : Word) (c : Nat) (s : State) : (configure rate c s).rsp = s.rsp := rfl
@[simp] theorem configure_snk (rate : Word) (c : Nat) (s : State) : (configure rate c s).snk = s.snk := rfl
@[simp] theorem configure_turns (rate : Word) (c : Nat) (s : State) : (configure rate c s).turns = s.turns := rfl

@[simp] theorem acceptFeed_config (len : Word) (p : List Byte) (s : State) : (acceptFeed len p s).config = s.config := rfl
@[simp] theorem acceptFeed_srate (len : Word) (p : List Byte) (s : State) : (acceptFeed len p s).srate = s.srate := rfl
@[simp] theorem acceptFeed_cap (len : Word) (p : List Byte) (s : State) : (acceptFeed len p s).cap = s.cap := rfl
@[simp] theorem acceptFeed_off (len : Word) (p : List Byte) (s : State) : (acceptFeed len p s).off = s.off := rfl
@[simp] theorem acceptFeed_buf (len : Word) (p : List Byte) (s : State) : (acceptFeed len p s).buf = s.buf := rfl
@[simp] theorem acceptFeed_cfgd (len : Word) (p : List Byte) (s : State) : (acceptFeed len p s).cfgd = s.cfgd := rfl
@[simp] theorem acceptFeed_busy (len : Word) (p : List Byte) (s : State) : (acceptFeed len p s).busy = true := rfl
@[simp] theorem acceptFeed_feed (len : Word) (p : List Byte) (s : State) : (acceptFeed len p s).feed = some { requester := s.port, len := len.toNat, pos := 0, input := p, phase := .copy } := rfl
@[simp] theorem acceptFeed_port (len : Word) (p : List Byte) (s : State) : (acceptFeed len p s).port = s.port := rfl
@[simp] theorem acceptFeed_cmd (len : Word) (p : List Byte) (s : State) : (acceptFeed len p s).cmd = s.cmd := rfl
@[simp] theorem acceptFeed_ans (len : Word) (p : List Byte) (s : State) : (acceptFeed len p s).ans = s.ans := rfl
@[simp] theorem acceptFeed_rsp (len : Word) (p : List Byte) (s : State) : (acceptFeed len p s).rsp = s.rsp := rfl
@[simp] theorem acceptFeed_snk (len : Word) (p : List Byte) (s : State) : (acceptFeed len p s).snk = s.snk := rfl
@[simp] theorem acceptFeed_turns (len : Word) (p : List Byte) (s : State) : (acceptFeed len p s).turns = s.turns := rfl

@[simp] theorem beginWait_config (f : Feed) (fr : Frame) (s : State) : (beginWait f fr s).config = s.config := rfl
@[simp] theorem beginWait_srate (f : Feed) (fr : Frame) (s : State) : (beginWait f fr s).srate = s.srate := rfl
@[simp] theorem beginWait_cap (f : Feed) (fr : Frame) (s : State) : (beginWait f fr s).cap = s.cap := rfl
@[simp] theorem beginWait_off (f : Feed) (fr : Frame) (s : State) : (beginWait f fr s).off = s.off := rfl
@[simp] theorem beginWait_buf (f : Feed) (fr : Frame) (s : State) : (beginWait f fr s).buf = s.buf := rfl
@[simp] theorem beginWait_cfgd (f : Feed) (fr : Frame) (s : State) : (beginWait f fr s).cfgd = s.cfgd := rfl
@[simp] theorem beginWait_busy (f : Feed) (fr : Frame) (s : State) : (beginWait f fr s).busy = s.busy := rfl
@[simp] theorem beginWait_feed (f : Feed) (fr : Frame) (s : State) : (beginWait f fr s).feed = some { f with phase := .wait fr } := rfl
@[simp] theorem beginWait_port (f : Feed) (fr : Frame) (s : State) : (beginWait f fr s).port = s.port := rfl
@[simp] theorem beginWait_cmd (f : Feed) (fr : Frame) (s : State) : (beginWait f fr s).cmd = s.cmd := rfl
@[simp] theorem beginWait_ans (f : Feed) (fr : Frame) (s : State) : (beginWait f fr s).ans = s.ans := rfl
@[simp] theorem beginWait_rsp (f : Feed) (fr : Frame) (s : State) : (beginWait f fr s).rsp = s.rsp := rfl
@[simp] theorem beginWait_snk (f : Feed) (fr : Frame) (s : State) : (beginWait f fr s).snk = s.snk := rfl
@[simp] theorem beginWait_turns (f : Feed) (fr : Frame) (s : State) : (beginWait f fr s).turns = s.turns := rfl

@[simp] theorem afterCopy_config (f : Feed) (m : Memory) (s : State) : (afterCopy f m s).config = s.config := rfl
@[simp] theorem afterCopy_srate (f : Feed) (m : Memory) (s : State) : (afterCopy f m s).srate = s.srate := rfl
@[simp] theorem afterCopy_cap (f : Feed) (m : Memory) (s : State) : (afterCopy f m s).cap = s.cap := rfl
@[simp] theorem afterCopy_off (f : Feed) (m : Memory) (s : State) : (afterCopy f m s).off = s.off + copyCount f s := rfl
@[simp] theorem afterCopy_buf (f : Feed) (m : Memory) (s : State) : (afterCopy f m s).buf = m := rfl
@[simp] theorem afterCopy_cfgd (f : Feed) (m : Memory) (s : State) : (afterCopy f m s).cfgd = s.cfgd := rfl
@[simp] theorem afterCopy_busy (f : Feed) (m : Memory) (s : State) : (afterCopy f m s).busy = s.busy := rfl
@[simp] theorem afterCopy_feed (f : Feed) (m : Memory) (s : State) : (afterCopy f m s).feed = some { f with pos := f.pos + copyCount f s } := rfl
@[simp] theorem afterCopy_port (f : Feed) (m : Memory) (s : State) : (afterCopy f m s).port = s.port := rfl
@[simp] theorem afterCopy_cmd (f : Feed) (m : Memory) (s : State) : (afterCopy f m s).cmd = s.cmd := rfl
@[simp] theorem afterCopy_ans (f : Feed) (m : Memory) (s : State) : (afterCopy f m s).ans = s.ans := rfl
@[simp] theorem afterCopy_rsp (f : Feed) (m : Memory) (s : State) : (afterCopy f m s).rsp = s.rsp := rfl
@[simp] theorem afterCopy_snk (f : Feed) (m : Memory) (s : State) : (afterCopy f m s).snk = s.snk := rfl
@[simp] theorem afterCopy_turns (f : Feed) (m : Memory) (s : State) : (afterCopy f m s).turns = s.turns := rfl

@[simp] theorem flushAck_config (f : Feed) (s : State) : (flushAck f s).config = s.config := rfl
@[simp] theorem flushAck_srate (f : Feed) (s : State) : (flushAck f s).srate = s.srate := rfl
@[simp] theorem flushAck_cap (f : Feed) (s : State) : (flushAck f s).cap = s.cap := rfl
@[simp] theorem flushAck_off (f : Feed) (s : State) : (flushAck f s).off = 0 := rfl
@[simp] theorem flushAck_buf (f : Feed) (s : State) : (flushAck f s).buf = [] := rfl
@[simp] theorem flushAck_cfgd (f : Feed) (s : State) : (flushAck f s).cfgd = s.cfgd := rfl
@[simp] theorem flushAck_busy (f : Feed) (s : State) : (flushAck f s).busy = s.busy := rfl
@[simp] theorem flushAck_feed (f : Feed) (s : State) : (flushAck f s).feed = some { f with phase := .copy } := rfl
@[simp] theorem flushAck_port (f : Feed) (s : State) : (flushAck f s).port = s.port := rfl
@[simp] theorem flushAck_cmd (f : Feed) (s : State) : (flushAck f s).cmd = s.cmd := rfl
@[simp] theorem flushAck_ans (f : Feed) (s : State) : (flushAck f s).ans = s.ans := rfl
@[simp] theorem flushAck_rsp (f : Feed) (s : State) : (flushAck f s).rsp = s.rsp := rfl
@[simp] theorem flushAck_snk (f : Feed) (s : State) : (flushAck f s).snk = s.snk := rfl
@[simp] theorem flushAck_turns (f : Feed) (s : State) : (flushAck f s).turns = s.turns := rfl

@[simp] theorem flushNak_config (f : Feed) (s : State) : (flushNak f s).config = s.config := rfl
@[simp] theorem flushNak_srate (f : Feed) (s : State) : (flushNak f s).srate = s.srate := rfl
@[simp] theorem flushNak_cap (f : Feed) (s : State) : (flushNak f s).cap = s.cap := rfl
@[simp] theorem flushNak_off (f : Feed) (s : State) : (flushNak f s).off = s.off := rfl
@[simp] theorem flushNak_buf (f : Feed) (s : State) : (flushNak f s).buf = s.buf := rfl
@[simp] theorem flushNak_cfgd (f : Feed) (s : State) : (flushNak f s).cfgd = s.cfgd := rfl
@[simp] theorem flushNak_busy (f : Feed) (s : State) : (flushNak f s).busy = false := rfl
@[simp] theorem flushNak_feed (f : Feed) (s : State) : (flushNak f s).feed = none := rfl
@[simp] theorem flushNak_port (f : Feed) (s : State) : (flushNak f s).port = s.port := rfl
@[simp] theorem flushNak_cmd (f : Feed) (s : State) : (flushNak f s).cmd = s.cmd := rfl
@[simp] theorem flushNak_ans (f : Feed) (s : State) : (flushNak f s).ans = s.ans := rfl
@[simp] theorem flushNak_rsp (f : Feed) (s : State) : (flushNak f s).rsp = s.rsp ++ [(f.requester, responseRecord (statusCode .errSink) f.pos)] := rfl
@[simp] theorem flushNak_snk (f : Feed) (s : State) : (flushNak f s).snk = s.snk := rfl
@[simp] theorem flushNak_turns (f : Feed) (s : State) : (flushNak f s).turns = s.turns := rfl

@[simp] theorem completeStep_config (f : Feed) (s : State) : (completeStep f s).config = s.config := rfl
@[simp] theorem completeStep_srate (f : Feed) (s : State) : (completeStep f s).srate = s.srate := rfl
@[simp] theorem completeStep_cap (f : Feed) (s : State) : (completeStep f s).cap = s.cap := rfl
@[simp] theorem completeStep_off (f : Feed) (s : State) : (completeStep f s).off = s.off := rfl
@[simp] theorem completeStep_buf (f : Feed) (s : State) : (completeStep f s).buf = s.buf := rfl
@[simp] theorem completeStep_cfgd (f : Feed) (s : State) : (completeStep f s).cfgd = s.cfgd := rfl
@[simp] theorem completeStep_busy (f : Feed) (s : State) : (completeStep f s).busy = false := rfl
@[simp] theorem completeStep_feed (f : Feed) (s : State) : (completeStep f s).feed = none := rfl
@[simp] theorem completeStep_port (f : Feed) (s : State) : (completeStep f s).port = s.port := rfl
@[simp] theorem completeStep_cmd (f : Feed) (s : State) : (completeStep f s).cmd = s.cmd := rfl
@[simp] theorem completeStep_ans (f : Feed) (s : State) : (completeStep f s).ans = s.ans := rfl
@[simp] theorem completeStep_rsp (f : Feed) (s : State) : (completeStep f s).rsp = s.rsp ++ [(f.requester, responseRecord (statusCode .ok) f.len)] := rfl
@[simp] theorem completeStep_snk (f : Feed) (s : State) : (completeStep f s).snk = s.snk := rfl
@[simp] theorem completeStep_turns (f : Feed) (s : State) : (completeStep f s).turns = s.turns := rfl

@[simp] theorem loadRecord_config (b : Record) (s : State) : (loadRecord b s).config = s.config := rfl
@[simp] theorem loadRecord_srate (b : Record) (s : State) : (loadRecord b s).srate = s.srate := rfl
@[simp] theorem loadRecord_cap (b : Record) (s : State) : (loadRecord b s).cap = s.cap := rfl
@[simp] theorem loadRecord_off (b : Record) (s : State) : (loadRecord b s).off = s.off := rfl
@[simp] theorem loadRecord_buf (b : Record) (s : State) : (loadRecord b s).buf = s.buf := rfl
@[simp] theorem loadRecord_cfgd (b : Record) (s : State) : (loadRecord b s).cfgd = s.cfgd := rfl
@[simp] theorem loadRecord_busy (b : Record) (s : State) : (loadRecord b s).busy = s.busy := rfl
@[simp] theorem loadRecord_feed (b : Record) (s : State) : (loadRecord b s).feed = s.feed := rfl
@[simp] theorem loadRecord_port (b : Record) (s : State) : (loadRecord b s).port = s.port := rfl
@[simp] theorem loadRecord_cmd (b : Record) (s : State) : (loadRecord b s).cmd = (0, b) :: s.cmd := rfl
@[simp] theorem loadRecord_ans (b : Record) (s : State) : (loadRecord b s).ans = s.ans := rfl
@[simp] theorem loadRecord_rsp (b : Record) (s : State) : (loadRecord b s).rsp = s.rsp := rfl
@[simp] theorem loadRecord_snk (b : Record) (s : State) : (loadRecord b s).snk = s.snk := rfl
@[simp] theorem loadRecord_turns (b : Record) (s : State) : (loadRecord b s).turns = .producer :: s.turns := rfl

end Sys2Proof.Machine
end

