-- ==== Sys2Proof/Laws/Steps.lean ====
section
/-! SUPPORT. For each shared operation and each kind of step, one lemma that says everything it can do when it answers
a next state. -/

namespace Sys2Proof.Machine

theorem next_inj {s t : State} (h : (Host.Outcome.next s : Result) = .next t) : s = t := by
  cases h; rfl

/-- What an accepted rate tells (R60). -/
theorem framesize_accept (capMax cap : Nat) (rate : Word) (h : framesize capMax rate = .accept cap) :
    cap = rate.toNat / 100 ∧ rate.toNat % 100 = 0 ∧ 1 ≤ cap ∧ cap ≤ capMax := by
  unfold framesize at h
  split at h
  · cases h
  · rename_i hz
    split at h
    · cases h
    · rename_i hd
      split at h
      · cases h
      · rename_i hr
        cases h
        have e : frameDiv = 100 := rfl
        rw [e] at hd hr ⊢
        omega

/-- The calculator refuses a rate with one of its three errors (R60). -/
theorem framesize_reject (capMax : Nat) (rate : Word) (e : Status) (h : framesize capMax rate = .reject e) :
    e = .errRateZero ∨ e = .errRateIndiv ∨ e = .errRateRange := by
  unfold framesize at h
  split at h
  · cases h; simp
  · split at h
    · cases h; simp
    · split at h
      · cases h; simp
      · cases h

/-- The errors a command record can raise at once: every status but `OK` and `ERR_SINK` (R101, R110). -/
def Immediate (e : Status) : Prop := e ≠ .ok ∧ e ≠ .errSink

/-- `CFG` raises one error and does nothing else, or configures an idle, unconfigured block (R61). -/
theorem execCfg_cases (rate : Word) (s t : State) (h : execCfg rate s = .next t) :
    (∃ e, Immediate e ∧ t = raise e s) ∨
    (s.busy = false ∧ s.cfgd = false ∧ ∃ cap, framesize s.config.capMax rate = .accept cap ∧
      t = respond s.port .ok 0 (configure rate cap s)) := by
  cases hb : s.busy <;> simp only [execCfg, hb] at h
  · cases hc : s.cfgd <;> simp only [hc] at h
    · cases hf : framesize s.config.capMax rate with
      | reject e => simp only [hf] at h; exact .inl ⟨e, by rcases framesize_reject _ _ _ hf with q | q | q <;> simp [Immediate, q], (next_inj h).symm⟩
      | accept cap => simp only [hf] at h; exact .inr ⟨rfl, rfl, cap, rfl, (next_inj h).symm⟩
    · exact .inl ⟨_, by simp [Immediate], (next_inj h).symm⟩
  · exact .inl ⟨_, by simp [Immediate], (next_inj h).symm⟩

/-- `FEED` raises one error and does nothing else, answers the empty `FEED`, or starts the loop (R70). -/
theorem execFeed_cases (len : Word) (payload : List Byte) (s t : State) (h : execFeed len payload s = .next t) :
    (∃ e, Immediate e ∧ t = raise e s) ∨
    (s.busy = false ∧ s.cfgd = true ∧ len.toNat = 0 ∧ t = respond s.port .ok 0 s) ∨
    (s.busy = false ∧ s.cfgd = true ∧ 1 ≤ len.toNat ∧ t = acceptFeed len payload s) := by
  cases hb : s.busy <;> simp only [execFeed, hb] at h
  · cases hc : s.cfgd <;> simp only [hc] at h
    · exact .inl ⟨_, by simp [Immediate], (next_inj h).symm⟩
    · by_cases hl : len.toNat = 0
      · simp only [hl] at h; exact .inr (.inl ⟨rfl, rfl, hl, (next_inj h).symm⟩)
      · simp only [hl] at h; exact .inr (.inr ⟨rfl, rfl, by omega, (next_inj h).symm⟩)
  · exact .inl ⟨_, by simp [Immediate], (next_inj h).symm⟩

/-- `END` raises one error and does nothing else, or closes the stream of an idle block (R62). -/
theorem execEndStream_cases (s t : State) (h : execEndStream s = .next t) :
    (∃ e, Immediate e ∧ t = raise e s) ∨
    (s.busy = false ∧ s.cfgd = true ∧ t = respond s.port .ok 0 (clearRegisters s)) := by
  cases hb : s.busy <;> simp only [execEndStream, hb] at h
  · cases hc : s.cfgd <;> simp only [hc] at h
    · exact .inl ⟨_, by simp [Immediate], (next_inj h).symm⟩
    · exact .inr ⟨rfl, rfl, (next_inj h).symm⟩
  · exact .inl ⟨_, by simp [Immediate], (next_inj h).symm⟩

/-- No command stops the machine: each of the three answers a next state from every state. -/
theorem exec_next (i : Instr) (s : State) : ∃ t, exec i s = .next t := by
  cases i with
  | cfg rate =>
    simp only [exec, execCfg]
    split
    · exact ⟨_, rfl⟩
    · split
      · exact ⟨_, rfl⟩
      · split <;> exact ⟨_, rfl⟩
  | feed len payload =>
    simp only [exec, execFeed]
    split
    · exact ⟨_, rfl⟩
    · split
      · split <;> exact ⟨_, rfl⟩
      · exact ⟨_, rfl⟩
  | endStream =>
    simp only [exec, execEndStream]
    split
    · exact ⟨_, rfl⟩
    · split <;> exact ⟨_, rfl⟩

/-- What an answer record does (R56, R88, R89): nothing when no DELIVER is outstanding, else the ACK or the NAK. -/
theorem takeAnswer_cases (b : Record) (s : State) :
    takeAnswer b s = s ∨
    (∃ f fr, s.busy = true ∧ s.feed = some f ∧ f.phase = .wait fr ∧
      ((isAck b = true ∧ takeAnswer b s = flushAck f s) ∨ (isAck b = false ∧ takeAnswer b s = flushNak f s))) := by
  cases hb : s.busy with
  | false => exact .inl (by simp [takeAnswer, hb])
  | true =>
    cases hf : s.feed with
    | none => exact .inl (by simp [takeAnswer, hf])
    | some f =>
      cases hp : f.phase with
      | copy => exact .inl (by simp [takeAnswer, hb, hf, hp])
      | wait fr =>
        refine .inr ⟨f, fr, rfl, rfl, hp, ?_⟩
        cases ha : isAck b <;> simp [takeAnswer, hb, hf, hp, ha]

/-- One ITER (R81): the copy, then the DELIVER exactly when the copy has filled the buffer. -/
theorem iterStep_cases (f : Feed) (s t : State) (h : iterStep f s = .next t) :
    ∃ xs m, inRun f.input f.pos (copyCount f s) = some xs ∧
      bufWriteRun s.config.capMax s.buf s.off xs = some m ∧
      ((full (afterCopy f m s) = false ∧ t = afterCopy f m s) ∨
        (full (afterCopy f m s) = true ∧ ∃ ys, bufRun m 0 s.cap = some ys ∧
          t = deliver ⟨s.srate, ys⟩
            (beginWait { f with pos := f.pos + copyCount f s } ⟨s.srate, ys⟩ (afterCopy f m s)))) := by
  simp only [iterStep] at h
  split at h
  · cases h
  · rename_i xs hx
    split at h
    · cases h
    · rename_i m hm
      refine ⟨xs, m, hx, hm, ?_⟩
      cases hfull : full (afterCopy f m s) with
      | false => simp only [detect, hfull] at h; exact .inl ⟨rfl, (next_inj h).symm⟩
      | true =>
        simp only [detect, hfull, if_true, flushSend, afterCopy_buf, afterCopy_cap, afterCopy_srate] at h
        split at h
        · cases h
        · rename_i ys hy
          exact .inr ⟨rfl, ys, hy, (next_inj h).symm⟩

/-- The block's own move (R81): nothing, ITER or COMPLETE. -/
theorem ownStep_cases (s t : State) (h : ownStep s = .next t) :
    t = s ∨
    (∃ f, s.busy = true ∧ s.feed = some f ∧ f.phase = .copy ∧
      ((f.pos < f.len ∧ iterStep f s = .next t) ∨ (f.pos = f.len ∧ t = completeStep f s))) := by
  simp only [ownStep] at h
  split at h
  · rename_i f hb hf
    split at h
    · exact .inl (next_inj h).symm
    · rename_i hp
      split at h
      · rename_i hl; exact .inr ⟨f, hb, hf, hp, .inl ⟨hl, h⟩⟩
      · split at h
        · rename_i hl; exact .inr ⟨f, hb, hf, hp, .inr ⟨hl, (next_inj h).symm⟩⟩
        · exact .inl (next_inj h).symm
  · exact .inl (next_inj h).symm

/-- A command record begins (R109): it is rejected with nothing else changed, or its command runs on an idle block. -/
theorem beginRecord_cases (b : Record) (s t : State) (h : beginRecord b s = .next t) :
    (∃ e, Immediate e ∧ t = raise e s) ∨ (s.busy = false ∧ ∃ i, decode b = .ok i ∧ exec i s = .next t) := by
  simp only [beginRecord] at h
  split at h
  · exact .inl ⟨_, by simp [Immediate], (next_inj h).symm⟩
  · rename_i hb
    split at h
    · exact .inl ⟨_, by simp [Immediate], (next_inj h).symm⟩
    · rename_i i hd
      exact .inr ⟨by simpa using hb, i, hd, h⟩

/-- Taking a turn off the schedule changes nothing but the schedule. -/
theorem nextTurn_snd (s : State) : (nextTurn s).2 = { s with turns := s.turns.tail } := by
  unfold nextTurn
  split <;> rename_i h <;> cases s <;> simp_all

/-- Every step is the move of one of the four agents, from the state with the turn taken off the schedule. -/
theorem step_cases (s t : State) (h : step s = .next t) :
    ∃ s1, s1 = { s with turns := s.turns.tail } ∧
      (((nextTurn s).1 = .block ∧ ownStep s1 = .next t) ∨ ((nextTurn s).1 = .sink ∧ t = sinkMove s1) ∨
        ((nextTurn s).1 = .platform ∧ t = applyReset s1) ∨ ((nextTurn s).1 = .producer ∧ producerMove s1 = .next t)) := by
  refine ⟨(nextTurn s).2, nextTurn_snd s, ?_⟩
  simp only [step] at h
  cases ha : (nextTurn s).1 <;> simp only [ha, agentMove] at h
  · exact .inl ⟨rfl, h⟩
  · exact .inr (.inr (.inr ⟨rfl, h⟩))
  · exact .inr (.inl ⟨rfl, (next_inj h).symm⟩)
  · exact .inr (.inr (.inl ⟨rfl, (next_inj h).symm⟩))

/-- The producer's move: nothing, or the beginning of the next record. -/
theorem producerMove_cases (s t : State) (h : producerMove s = .next t) :
    t = s ∨ ∃ r b rest, s.cmd = (r, b) :: rest ∧ beginRecord b { s with cmd := rest, port := r } = .next t := by
  simp only [producerMove] at h
  split at h
  · rename_i r b rest hc; exact .inr ⟨r, b, rest, hc, h⟩
  · exact .inl (next_inj h).symm

/-- The sink's move: nothing, or the next answer record taken. -/
theorem sinkMove_cases (s : State) :
    sinkMove s = s ∨ ∃ b rest, s.ans = b :: rest ∧ sinkMove s = takeAnswer b { s with ans := rest } := by
  cases h : s.ans with
  | nil => exact .inl (by simp [sinkMove, h])
  | cons b rest => exact .inr ⟨b, rest, rfl, by simp [sinkMove, h]⟩

/-- Where the copy of one ITER leaves a block whose invariants hold: it succeeds, `n = min(ROOM, LEN - POS)` samples
are appended to the buffer's, and the cells that hold a value are those below the new `OFF` (R35, R36, R72). -/
theorem copy_ok (s : State) (f : Feed) (hi : Inv s) (hf : s.feed = some f) :
    ∃ xs m, inRun f.input f.pos (copyCount f s) = some xs ∧ xs.length = copyCount f s ∧
      bufWriteRun s.config.capMax s.buf s.off xs = some m ∧
      m.map Prod.fst = List.range (s.off + copyCount f s) ∧ m.map Prod.snd = bufSamples s ++ xs ∧
      Memory.wf m = true := by
  have hk := hi.feed_ok f (by simp [hf])
  have hoff := hi.off_le
  have hcap := (hi.configured hk.configured).2.2.2
  have hpos := hk.pos_le
  have hlen := hk.input_len
  have hn : copyCount f s ≤ s.cap - s.off ∧ copyCount f s ≤ f.len - f.pos := by
    simp only [copyCount, room]; omega
  obtain ⟨xs, hx, hl⟩ := inRun_isSome f.input f.pos (copyCount f s) (by omega)
  obtain ⟨m, h1, h2, h3⟩ := bufWriteRun_append s.config.capMax xs s.buf s.off hi.cells (by omega)
  exact ⟨xs, m, hx, hl, h1, hl ▸ h2, h3, wf_bufWriteRun _ xs s.buf m s.off hi.mem_wf h1⟩

/-- Everything one step can do, by name. -/
inductive StepCase (s t : State) : Prop where
  /-- The agent whose turn it is does nothing to the block: no move to make, or a stray answer. -/
  | quiet (regs : SameRegisters s t) (snk : t.snk = s.snk) (rsp : t.rsp = s.rsp) (cmd : t.cmd = s.cmd)
      (cfg : t.config = s.config)
  /-- Reset (R120, R121). -/
  | reset (turn : (nextTurn s).1 = .platform) (eq : t = applyReset { s with turns := s.turns.tail })
  /-- A record is rejected at once (R110). -/
  | rejected (r : Nat) (b : Record) (rest : List (Nat × Record)) (e : Status) (at_ : AtRecord s r b rest)
      (imm : Immediate e) (eq : t = raise e (presented s r rest))
      (why : s.busy = true ∨ (∃ x, decode b = .error x) ∨
        ∃ i, s.busy = false ∧ decode b = .ok i ∧ exec i (presented s r rest) = .next t)
  /-- The empty `FEED` (R75). -/
  | emptyFeed (r : Nat) (b : Record) (rest : List (Nat × Record)) (len : Word) (p : List Byte)
      (at_ : AtRecord s r b rest) (idle : s.busy = false) (cfgd : s.cfgd = true) (dec : decode b = .ok (.feed len p))
      (zero : len.toNat = 0) (eq : t = respond r .ok 0 (presented s r rest))
  /-- A successful `CFG` (R61). -/
  | configured (r : Nat) (b : Record) (rest : List (Nat × Record)) (rate : Word) (cap : Nat)
      (at_ : AtRecord s r b rest) (idle : s.busy = false) (cfgd : s.cfgd = false) (dec : decode b = .ok (.cfg rate))
      (acc : framesize s.config.capMax rate = .accept cap)
      (eq : t = respond r .ok 0 (configure rate cap (presented s r rest)))
  /-- The acceptance of a `FEED` with `L >= 1` (R70). -/
  | accepted (r : Nat) (b : Record) (rest : List (Nat × Record)) (len : Word) (p : List Byte)
      (at_ : AtRecord s r b rest) (idle : s.busy = false) (cfgd : s.cfgd = true) (dec : decode b = .ok (.feed len p))
      (pos : 1 ≤ len.toNat) (eq : t = acceptFeed len p (presented s r rest))
  /-- A successful `END` (R62). -/
  | closed (r : Nat) (b : Record) (rest : List (Nat × Record)) (at_ : AtRecord s r b rest) (idle : s.busy = false)
      (cfgd : s.cfgd = true) (dec : decode b = .ok .endStream)
      (eq : t = respond r .ok 0 (clearRegisters (presented s r rest)))
  /-- The step ITER of a `FEED` in progress (R81); `iterStep_cases` says what it does. -/
  | iterated (f : Feed) (turn : (nextTurn s).1 = .block) (busy : s.busy = true) (feed : s.feed = some f)
      (copy : f.phase = .copy) (more : f.pos < f.len) (eq : iterStep f { s with turns := s.turns.tail } = .next t)
  /-- The step COMPLETE of a `FEED` in progress (R74, R81). -/
  | completed (f : Feed) (turn : (nextTurn s).1 = .block) (busy : s.busy = true) (feed : s.feed = some f)
      (copy : f.phase = .copy) (done : f.pos = f.len) (eq : t = completeStep f { s with turns := s.turns.tail })
  /-- The sink accepts the frame in flight (R88). -/
  | acked (f : Feed) (fr : Frame) (b : Record) (rest : List Record) (at_ : AtAnswer s b rest) (busy : s.busy = true)
      (feed : s.feed = some f) (wait : f.phase = .wait fr) (ack : isAck b = true)
      (eq : t = flushAck f { s with turns := s.turns.tail, ans := rest })
  /-- The sink refuses the frame in flight (R89). -/
  | naked (f : Feed) (fr : Frame) (b : Record) (rest : List Record) (at_ : AtAnswer s b rest) (busy : s.busy = true)
      (feed : s.feed = some f) (wait : f.phase = .wait fr) (nak : isAck b = false)
      (eq : t = flushNak f { s with turns := s.turns.tail, ans := rest })

/-- What the producer's move can do when it presents a record. -/
theorem stepCase_of_record (s t : State) (r : Nat) (b : Record) (rest : List (Nat × Record))
    (hat : AtRecord s r b rest) (h : beginRecord b (presented s r rest) = .next t) : StepCase s t := by
  simp only [beginRecord] at h
  split at h
  · rename_i hb
    exact .rejected r b rest _ hat (by simp [Immediate]) (next_inj h).symm (.inl hb)
  · rename_i hb
    have hb : s.busy = false := by simpa [presented] using hb
    split at h
    · rename_i x hx
      exact .rejected r b rest _ hat (by simp [Immediate]) (next_inj h).symm (.inr (.inl ⟨x, hx⟩))
    · rename_i i hd
      cases i with
      | cfg rate =>
        rcases execCfg_cases rate _ t h with ⟨e, he, ht⟩ | ⟨_, hc, cap, hcap, ht⟩
        · exact .rejected r b rest e hat he ht (.inr (.inr ⟨_, hb, hd, h⟩))
        · exact .configured r b rest rate cap hat hb hc hd hcap ht
      | feed len p =>
        rcases execFeed_cases len p _ t h with ⟨e, he, ht⟩ | ⟨_, hc, hl, ht⟩ | ⟨_, hc, hl, ht⟩
        · exact .rejected r b rest e hat he ht (.inr (.inr ⟨_, hb, hd, h⟩))
        · exact .emptyFeed r b rest len p hat hb hc hd hl ht
        · exact .accepted r b rest len p hat hb hc hd hl ht
      | endStream =>
        rcases execEndStream_cases _ t h with ⟨e, he, ht⟩ | ⟨_, hc, ht⟩
        · exact .rejected r b rest e hat he ht (.inr (.inr ⟨_, hb, hd, h⟩))
        · exact .closed r b rest hat hb hc hd ht

/-- Every step that answers a next state is one of the named cases. -/
theorem stepCase_of_step (s t : State) (h : step s = .next t) : StepCase s t := by
  obtain ⟨s1, rfl, ⟨ha, ho⟩ | ⟨ha, ht⟩ | ⟨ha, ht⟩ | ⟨ha, hp⟩⟩ := step_cases s t h
  · rcases ownStep_cases _ t ho with ht | ⟨f, hb, hf, hp, ⟨hl, hi⟩ | ⟨hl, ht⟩⟩
    · subst ht
      exact .quiet (by simp [SameRegisters]) rfl rfl rfl rfl
    · exact .iterated f ha hb hf hp hl hi
    · exact .completed f ha hb hf hp hl ht
  · rcases sinkMove_cases { s with turns := s.turns.tail } with q | ⟨b, rest, hans, q⟩ <;> rw [q] at ht
    · subst ht
      exact .quiet (by simp [SameRegisters]) rfl rfl rfl rfl
    · rcases takeAnswer_cases b { s with turns := s.turns.tail, ans := rest } with
        q | ⟨f, fr, hb, hf, hp, ⟨hk, q⟩ | ⟨hk, q⟩⟩ <;> rw [q] at ht
      · subst ht
        exact .quiet (by simp [SameRegisters]) rfl rfl rfl rfl
      · exact .acked f fr b rest ⟨ha, hans⟩ hb hf hp hk ht
      · exact .naked f fr b rest ⟨ha, hans⟩ hb hf hp hk ht
  · exact .reset ha ht
  · rcases producerMove_cases _ t hp with ht | ⟨r, b, rest, hcmd, hb⟩
    · subst ht
      exact .quiet (by simp [SameRegisters]) rfl rfl rfl rfl
    · exact stepCase_of_record s t r b rest ⟨ha, hcmd⟩ hb

/-- The invariants speak of the registers and the parameters alone. -/
theorem inv_of_sameRegisters {s t : State} (h : Inv s) (hr : SameRegisters s t) (hc : t.config = s.config) : Inv t := by
  obtain ⟨h1, h2, h3, h4, h5, h6, h7⟩ := hr
  constructor
  · rw [hc]; exact h.config_wf
  · rw [h4]; exact h.mem_wf
  · rw [h1, h2, h3, h5, h6]; exact h.unconfigured
  · rw [h1, h2, h5, hc]; exact h.configured
  · rw [h2, h3]; exact h.off_le
  · rw [h3, h4]; exact h.cells
  · rw [h6, h7]; exact h.busy_feed
  · intro f hf
    rw [h7] at hf
    have k := h.feed_ok f hf
    constructor
    · rw [h5]; exact k.configured
    · exact k.len_pos
    · exact k.len_lt
    · exact k.pos_le
    · exact k.input_len
    · rw [h2, h3]; exact k.copy_full
    · rw [h1, h2, h3, h4]; exact k.wait_full

/-- ITER on a block whose invariants hold, when the copy does not fill the buffer. -/
theorem iterStep_partial (s : State) (f : Feed) (h : Inv s) (hf : s.feed = some f)
    (hn : s.off + copyCount f s < s.cap) :
    ∃ xs m, inRun f.input f.pos (copyCount f s) = some xs ∧ xs.length = copyCount f s ∧
      bufWriteRun s.config.capMax s.buf s.off xs = some m ∧
      m.map Prod.fst = List.range (s.off + copyCount f s) ∧ m.map Prod.snd = bufSamples s ++ xs ∧
      iterStep f s = .next (afterCopy f m s) := by
  have k := h.feed_ok f (by simp [hf])
  obtain ⟨xs, m, hx, hl, hm, hc1, hc2, _⟩ := copy_ok s f h hf
  refine ⟨xs, m, hx, hl, hm, hc1, hc2, ?_⟩
  have hfull : full (afterCopy f m s) = false := by simp [full, k.configured]; omega
  simp only [iterStep, hx, hm, detect, hfull]
  rfl

/-- ITER on a block whose invariants hold, when the copy fills the buffer: the DELIVER carries the whole of it. -/
theorem iterStep_filling (s : State) (f : Feed) (h : Inv s) (hf : s.feed = some f)
    (hn : s.off + copyCount f s = s.cap) :
    ∃ xs m, inRun f.input f.pos (copyCount f s) = some xs ∧ xs.length = copyCount f s ∧
      bufWriteRun s.config.capMax s.buf s.off xs = some m ∧
      m.map Prod.fst = List.range s.cap ∧ m.map Prod.snd = bufSamples s ++ xs ∧
      bufRun m 0 s.cap = some (bufSamples s ++ xs) ∧
      iterStep f s = .next (deliver ⟨s.srate, bufSamples s ++ xs⟩
        (beginWait { f with pos := f.pos + copyCount f s } ⟨s.srate, bufSamples s ++ xs⟩ (afterCopy f m s))) := by
  have k := h.feed_ok f (by simp [hf])
  obtain ⟨xs, m, hx, hl, hm, hc1, hc2, _⟩ := copy_ok s f h hf
  rw [hn] at hc1
  have e := bufRun_of_range m s.cap hc1
  rw [hc2] at e
  refine ⟨xs, m, hx, hl, hm, hc1, hc2, e, ?_⟩
  have hfull : full (afterCopy f m s) = true := by simp [full, k.configured, hn]
  simp only [iterStep, hx, hm, detect, hfull, if_true, flushSend, afterCopy_buf, afterCopy_cap, e]
  rfl

end Sys2Proof.Machine
end

