-- ==== Sys2Proof/Tests/Slice0.lean ====
section
/-! SUPPORT. Tests on values of the spec's own vectors (95_test_vectors.md), and for every obligation with hypotheses
a state and operands that meet them. -/

namespace Sys2Proof.Tests

open Sys2Proof Sys2Proof.Machine

/-! ### Small states -/

/-- A run of samples as the cells from index `i` on. -/
def cellsFrom (i : Nat) : List Sample → Memory
  | [] => []
  | x :: xs => (i, x) :: cellsFrom (i + 1) xs

/-- An idle block of the reference instance, configured for `cap` samples a frame, holding `xs`. -/
def idle (cap : Nat) (xs : List Sample) : State :=
  { State.reset with
    srate := BitVec.ofNat 32 (100 * cap), cap := cap, off := xs.length, buf := cellsFrom 0 xs, cfgd := true }

/-- The same block inside a `FEED` of the samples `ys`, of the requester 7. -/
def inFeed (cap : Nat) (xs ys : List Sample) (pos : Nat) (phase : Phase) : State :=
  { idle cap xs with
    busy := true
    feed := some { requester := 7, len := ys.length, pos := pos, input := samplesBytes ys, phase := phase } }

/-- The state after one step, for a step that gives one. -/
def after (s : State) : State :=
  match step s with
  | .next t => t
  | _ => s

/-- The state after `k` steps. -/
def afterSteps (k : Nat) (s : State) : State :=
  match runSteps k s with
  | .next t => t
  | _ => s

/-- The state in which the record `b` of the requester 9 is about to be presented. -/
def presenting (b : Record) (s : State) : State := { s with cmd := [(9, b)], turns := [.producer] }

/-- The state in which the answer record `b` is about to arrive. -/
def answering (b : Record) (s : State) : State := { s with ans := [b], turns := [.sink] }

/-- Three samples of a frame of four: *Accumulating*. -/
def partial3 : State := idle 4 [1#16, 2#16, 3#16]

/-- A refused frame: *Stalled*. -/
def stalled4 : State := idle 4 [5#16, 6#16, 7#16, 8#16]

/-- The state before row 2 of P6: the next copy step fills the buffer. -/
def aboutToFill : State := inFeed 4 [1#16, 2#16, 3#16] [4#16, 5#16] 0 .copy

/-- A copy step that leaves room: one sample held, two to come. -/
def aboutToCopy : State := inFeed 4 [1#16] [2#16, 3#16] 0 .copy

/-- The whole input has been taken. -/
def aboutToComplete : State := inFeed 4 [1#16, 2#16, 3#16] [2#16, 3#16] 2 .copy

/-- The first iteration of a `FEED` accepted in state *Stalled* (R80). -/
def aboutToRetry : State := inFeed 4 [5#16, 6#16, 7#16, 8#16] [9#16, 10#16] 0 .copy

/-- The frame of the state after row 2 of P6. -/
def frame4 : Frame := { rate := 400#32, samples := [1#16, 2#16, 3#16, 4#16] }

/-- The state after row 2 of P6: a DELIVER is outstanding. -/
def awaiting : State := inFeed 4 [1#16, 2#16, 3#16, 4#16] [4#16, 5#16] 1 (.wait frame4)

/-! ### These states meet the invariants -/

theorem inv_idle_empty : Inv (idle 4 []) where
  config_wf := by decide
  mem_wf := by decide
  unconfigured := by decide
  configured := by decide
  off_le := by decide
  cells := by decide
  busy_feed := by decide
  feed_ok := by intro f h; cases h

theorem inv_partial3 : Inv partial3 where
  config_wf := by decide
  mem_wf := by decide
  unconfigured := by decide
  configured := by decide
  off_le := by decide
  cells := by decide
  busy_feed := by decide
  feed_ok := by intro f h; cases h

theorem inv_stalled4 : Inv stalled4 where
  config_wf := by decide
  mem_wf := by decide
  unconfigured := by decide
  configured := by decide
  off_le := by decide
  cells := by decide
  busy_feed := by decide
  feed_ok := by intro f h; cases h

theorem inv_aboutToFill : Inv aboutToFill where
  config_wf := by decide
  mem_wf := by decide
  unconfigured := by decide
  configured := by decide
  off_le := by decide
  cells := by decide
  busy_feed := by decide
  feed_ok := by
    intro f h
    cases h
    exact ⟨by decide, by decide, by decide, by decide, by decide, by decide, by decide⟩

theorem inv_aboutToCopy : Inv aboutToCopy where
  config_wf := by decide
  mem_wf := by decide
  unconfigured := by decide
  configured := by decide
  off_le := by decide
  cells := by decide
  busy_feed := by decide
  feed_ok := by
    intro f h
    cases h
    exact ⟨by decide, by decide, by decide, by decide, by decide, by decide, by decide⟩

theorem inv_aboutToComplete : Inv aboutToComplete where
  config_wf := by decide
  mem_wf := by decide
  unconfigured := by decide
  configured := by decide
  off_le := by decide
  cells := by decide
  busy_feed := by decide
  feed_ok := by
    intro f h
    cases h
    exact ⟨by decide, by decide, by decide, by decide, by decide, by decide, by decide⟩

theorem inv_aboutToRetry : Inv aboutToRetry where
  config_wf := by decide
  mem_wf := by decide
  unconfigured := by decide
  configured := by decide
  off_le := by decide
  cells := by decide
  busy_feed := by decide
  feed_ok := by
    intro f h
    cases h
    exact ⟨by decide, by decide, by decide, by decide, by decide, by decide, by decide⟩

theorem inv_awaiting : Inv awaiting where
  config_wf := by decide
  mem_wf := by decide
  unconfigured := by decide
  configured := by decide
  off_le := by decide
  cells := by decide
  busy_feed := by decide
  feed_ok := by
    intro f h
    cases h
    exact ⟨by decide, by decide, by decide, by decide, by decide, by decide, by decide⟩

/-- An unconfigured block about to be presented `CFG 400`. -/
theorem inv_unconfigured : Inv (presenting [0x01#8, 0x90#8, 0x01#8, 0x00#8, 0x00#8] State.reset) where
  config_wf := by decide
  mem_wf := by decide
  unconfigured := by decide
  configured := by decide
  off_le := by decide
  cells := by decide
  busy_feed := by decide
  feed_ok := by intro f h; cases h

/-- The records at hand, the answers at hand and the schedule do not matter to the invariants. -/
theorem inv_withChannels {s : State} (h : Inv s) (cmd : List (Nat × Record)) (ans : List Record) (turns : List Agent) :
    Inv { s with cmd := cmd, ans := ans, turns := turns } :=
  inv_of_sameRegisters h ⟨rfl, rfl, rfl, rfl, rfl, rfl, rfl⟩ rfl

/-! ### Ill-formed terms are refused -/

/-- R50: a payload that is not `2*L` bytes makes no `FEED`. -/
theorem test_feed_payload_too_short : (Instr.feed 1#32 [0x05#8]).wf = false := by decide

/-- R5: a depth of 0, and one above the limit, make no instance. -/
theorem test_config_out_of_range :
    Config.wf { capMax := 0 } = false ∧ Config.wf { capMax := 42949673 } = false ∧
    Config.wf { capMax := 42949672 } = true ∧ Config.reference.capw = 11 := by decide

/-- A buffer whose cells do not rise is not in canonical form. -/
theorem test_cells_out_of_order : Memory.wf [(1, 7#16), (1, 8#16)] = false ∧ Memory.wf [(2, 7#16), (1, 8#16)] = false := by
  decide

/-! ### Records, written out byte by byte from R46 and R49 -/

/-- V-C5, P4 row 4. -/
theorem test_decode_cfg :
    decode [0x01#8, 0x80#8, 0xBB#8, 0x00#8, 0x00#8] = .ok (.cfg 48000#32) ∧
    decode [0x01#8, 0x76#8, 0xAC#8, 0x00#8, 0x00#8] = .ok (.cfg 44150#32) ∧
    decode [0x01#8, 0xFF#8, 0xFF#8, 0xFF#8, 0xFF#8] = .ok (.cfg 4294967295#32) := by decide

/-- V-D11 and V-F9: the low byte of a sample comes first. -/
theorem test_decode_feed :
    decode [0x02#8, 0x02#8, 0x00#8, 0x00#8, 0x00#8, 0x34#8, 0x12#8, 0xCC#8, 0xED#8] =
      .ok (.feed 2#32 [0x34#8, 0x12#8, 0xCC#8, 0xED#8]) ∧
    inRun [0x34#8, 0x12#8, 0xCC#8, 0xED#8] 0 2 = some [4660#16, sampleOfInt (-4660)] ∧
    inRun [0x00#8, 0x80#8, 0xFF#8, 0xFF#8] 0 2 = some [sampleOfInt (-32768), sampleOfInt (-1)] := by decide

/-- V-D12. -/
theorem test_decode_end : decode [0x03#8] = .ok .endStream := by decide

/-- V-D1 to V-D10 and V-D14: the illegal records. -/
theorem test_decode_illegal :
    decode [] = .error .emptyRecord ∧ decode [0x00#8] = .error (.unknownOpcode 0x00#8) ∧
    decode [0x04#8] = .error (.unknownOpcode 0x04#8) ∧ decode [0xFF#8] = .error (.unknownOpcode 0xFF#8) ∧
    decode [0x01#8, 0x80#8, 0x3E#8] = .error (.wrongLength 0x01#8) ∧
    decode [0x01#8, 0x80#8, 0x3E#8, 0x00#8, 0x00#8, 0x00#8] = .error (.wrongLength 0x01#8) ∧
    decode [0x02#8, 0x01#8, 0x00#8, 0x00#8, 0x00#8, 0x05#8] = .error (.wrongLength 0x02#8) ∧
    decode [0x02#8, 0x01#8, 0x00#8, 0x00#8, 0x00#8, 0x05#8, 0x00#8, 0x06#8, 0x00#8] = .error (.wrongLength 0x02#8) ∧
    decode [0x02#8, 0x00#8, 0x00#8, 0x00#8] = .error (.wrongLength 0x02#8) ∧
    decode [0x03#8, 0x00#8] = .error (.wrongLength 0x03#8) ∧
    decode [0x02#8, 0x00#8, 0x00#8, 0x00#8, 0x80#8] = .error (.wrongLength 0x02#8) := by decide

/-- The rows of spec/opcode_table.json: the opcode alone, with zeros up to the row's length. -/
theorem test_decodeTableWord :
    decodeTableWord 8 1 = some (.cfg 0#32) ∧ decodeTableWord 8 2 = some (.feed 0#32 []) ∧
    decodeTableWord 8 3 = some .endStream ∧ decodeTableWord 40 0x00003E8001 = some (.cfg 16000#32) ∧
    decodeTableWord 8 4 = none := by decide

/-! ### One step of each command -/

/-- V-C2, and its example in R61. -/
theorem test_cfg_16000 :
    (after (presenting [0x01#8, 0x80#8, 0x3E#8, 0x00#8, 0x00#8] State.reset)).cap = 160 ∧
    (after (presenting [0x01#8, 0x80#8, 0x3E#8, 0x00#8, 0x00#8] State.reset)).srate = 16000#32 ∧
    (after (presenting [0x01#8, 0x80#8, 0x3E#8, 0x00#8, 0x00#8] State.reset)).rsp =
      [(9, [0x00#8, 0x00#8, 0x00#8, 0x00#8, 0x00#8])] := by decide

/-- V-P4 and V-C8: the lifecycle test comes before the rate tests; 1921 cells do not fit. -/
theorem test_cfg_errors :
    (after (presenting [0x01#8, 0x00#8, 0x00#8, 0x00#8, 0x00#8] partial3)).rsp =
      [(9, [0x04#8, 0x00#8, 0x00#8, 0x00#8, 0x00#8])] ∧
    (after (presenting [0x01#8, 0x64#8, 0xEE#8, 0x02#8, 0x00#8] State.reset)).rsp =
      [(9, [0x03#8, 0x00#8, 0x00#8, 0x00#8, 0x00#8])] := by decide

/-- The example of R85 (P1, row 4): the copy that fills the buffer sends the DELIVER. -/
theorem test_feed_fills :
    (after (inFeed 4 [1#16, 0xFFFF#16, 256#16] [0x8000#16, 0x7FFF#16] 0 .copy)).snk =
      [[0x90#8, 0x01#8, 0x00#8, 0x00#8, 0x01#8, 0x00#8, 0xFF#8, 0xFF#8, 0x00#8, 0x01#8, 0x00#8, 0x80#8]] := by decide

/-- V-P5: the empty `FEED` is checked. -/
theorem test_feed_unconfigured :
    (after (presenting [0x02#8, 0x00#8, 0x00#8, 0x00#8, 0x00#8] State.reset)).rsp =
      [(9, [0x04#8, 0x00#8, 0x00#8, 0x00#8, 0x00#8])] := by decide

/-- The example of R62: three samples are lost and nothing is delivered. -/
theorem test_end_discards :
    (after (presenting [0x03#8] partial3)).cap = 0 ∧ (after (presenting [0x03#8] partial3)).buf = [] ∧
    (after (presenting [0x03#8] partial3)).snk = [] ∧
    (after (presenting [0x03#8] partial3)).rsp = [(9, [0x00#8, 0x00#8, 0x00#8, 0x00#8, 0x00#8])] := by decide

/-- V-P3: while a DELIVER is outstanding `END` is `ERR_BUSY` and the stream stays open. -/
theorem test_end_busy :
    (after (presenting [0x03#8] awaiting)).rsp = [(9, [0x05#8, 0x00#8, 0x00#8, 0x00#8, 0x00#8])] ∧
    (after (presenting [0x03#8] awaiting)).cfgd = true := by decide

/-- The first step after reset runs the record that is placed for it. -/
theorem test_withFetchWord :
    step (State.reset.withFetchWord 8 3) = exec .endStream State.reset ∧
    step (State.reset.withFetchWord 8 1) = exec (.cfg 0#32) State.reset := ⟨rfl, rfl⟩

/-! ### The hypotheses of the obligations are met -/

theorem witness_DecodeOfEncode :
    (Instr.cfg 16000#32).wf = true ∧ (Instr.feed 1#32 [0x34#8, 0x12#8]).wf = true ∧ Instr.endStream.wf = true := by
  decide

theorem witness_EncodeOfDecode : decode [0x01#8, 0x64#8, 0x00#8, 0x00#8, 0x00#8] = .ok (.cfg 100#32) := by decide

/-- One record for each of the four clauses, and an idle and a busy block. -/
theorem witness_DecoderIsTotal :
    (([0x01#8, 0x00#8, 0x00#8, 0x00#8, 0x00#8] : Record).length = 5 ∧
      ([0x01#8, 0x00#8, 0x00#8, 0x00#8, 0x00#8] : Record)[0]? = some 0x01#8) ∧
    (5 ≤ ([0x02#8, 0x01#8, 0x00#8, 0x00#8, 0x00#8, 0x05#8, 0x00#8] : Record).length ∧
      ([0x02#8, 0x01#8, 0x00#8, 0x00#8, 0x00#8, 0x05#8, 0x00#8] : Record)[0]? = some 0x02#8 ∧
      ([0x02#8, 0x01#8, 0x00#8, 0x00#8, 0x00#8, 0x05#8, 0x00#8] : Record).length =
        5 + 2 * (operandAt [0x02#8, 0x01#8, 0x00#8, 0x00#8, 0x00#8, 0x05#8, 0x00#8]).toNat) ∧
    (([0x03#8] : Record).length = 1 ∧ ([0x03#8] : Record)[0]? = some 0x03#8) ∧
    (¬(([] : Record).length = 5 ∧ ([] : Record)[0]? = some 0x01#8) ∧
      ¬(5 ≤ ([] : Record).length ∧ ([] : Record)[0]? = some 0x02#8 ∧
        ([] : Record).length = 5 + 2 * (operandAt []).toNat) ∧
      ¬(([] : Record).length = 1 ∧ ([] : Record)[0]? = some 0x03#8)) ∧
    partial3.busy = false ∧ awaiting.busy = true := by decide

theorem witness_OperandAssembly :
    decode [0x01#8, 0x64#8, 0x00#8, 0x00#8, 0x00#8] = .ok (.cfg 100#32) ∧
    decode [0x02#8, 0x01#8, 0x00#8, 0x00#8, 0x00#8, 0x00#8, 0x80#8] = .ok (.feed 1#32 [0x00#8, 0x80#8]) ∧
    0 < (1#32).toNat := by decide

theorem witness_ResponseRecordLayout : 4294967295 < 4294967296 := by decide

theorem witness_DeliverRecordLayout : ([7#16, 0x8000#16] : List Sample)[1]? = some 0x8000#16 := by decide

theorem witness_PseudoInstructionsExpand : ∃ n k : Nat, k < n := ⟨3, 2, by decide⟩

theorem witness_ResetAbandonsEverything :
    (nextTurn { awaiting with turns := [.platform] }).1 = .platform ∧ awaiting.busy = true := by decide

/-- One rate at the edge of each clause. -/
theorem witness_FrameSizeCalculator :
    (0#32).toNat = 0 ∧
    ((4294967295#32).toNat ≠ 0 ∧ (4294967295#32).toNat % 100 ≠ 0) ∧ ((99#32).toNat ≠ 0 ∧ (99#32).toNat % 100 ≠ 0) ∧
    ((192100#32).toNat ≠ 0 ∧ (192100#32).toNat % 100 = 0 ∧ (192100#32).toNat / 100 > 1920) ∧
    ((192000#32).toNat ≠ 0 ∧ (192000#32).toNat % 100 = 0 ∧ (192000#32).toNat / 100 ≤ 1920) ∧
    ((100#32).toNat ≠ 0 ∧ (100#32).toNat % 100 = 0 ∧ (100#32).toNat / 100 ≤ 1) := by decide

theorem witness_CfgConfigures :
    State.reset.busy = false ∧ State.reset.cfgd = false ∧ (192000#32).toNat ≠ 0 ∧ (192000#32).toNat % 100 = 0 ∧
    (192000#32).toNat / 100 ≤ State.reset.config.capMax := by decide

/-- One state and rate for each of the five branches. -/
theorem witness_CfgErrors :
    awaiting.busy = true ∧ (partial3.busy = false ∧ partial3.cfgd = true) ∧
    (State.reset.busy = false ∧ State.reset.cfgd = false ∧ (0#32).toNat = 0 ∧ (99#32).toNat ≠ 0 ∧
      (99#32).toNat % 100 ≠ 0 ∧ (192100#32).toNat ≠ 0 ∧ (192100#32).toNat % 100 = 0 ∧
      (192100#32).toNat / 100 > State.reset.config.capMax) := by decide

theorem witness_EndClosesTheStream : stalled4.busy = false ∧ stalled4.cfgd = true := by decide

theorem witness_FeedAndEndErrors :
    awaiting.busy = true ∧ State.reset.busy = false ∧ State.reset.cfgd = false ∧
    ∃ i : Instr, i = .endStream ∨ ∃ len payload, i = .feed len payload :=
  ⟨rfl, rfl, rfl, .feed 0#32 [], .inr ⟨_, _, rfl⟩⟩

theorem witness_CommandFrames :
    (∃ t, exec (.cfg 400#32) State.reset = .next t) ∧ (∃ t, exec (.feed 1#32 [0x07#8, 0x00#8]) partial3 = .next t) ∧
    (∃ t, exec .endStream stalled4 = .next t) := ⟨⟨_, rfl⟩, ⟨_, rfl⟩, ⟨_, rfl⟩⟩

theorem witness_FeedIsAccepted : stalled4.busy = false ∧ stalled4.cfgd = true ∧ 1 ≤ (1#32).toNat := by decide

theorem witness_EmptyFeedDoesNothing :
    (stalled4.busy = false ∧ stalled4.cfgd = true) ∧ awaiting.busy = true ∧
    (State.reset.busy = false ∧ State.reset.cfgd = false) := by decide

theorem witness_CopyWithoutFilling :
    ∃ (s : State) (f : Feed) (n : Nat), Inv s ∧ (nextTurn s).1 = .block ∧ s.feed = some f ∧ f.phase = .copy ∧
      f.pos < f.len ∧ n = min (s.cap - s.off) (f.len - f.pos) ∧ s.off + n < s.cap :=
  ⟨aboutToCopy, _, 2, inv_aboutToCopy, rfl, rfl, rfl, by decide, by decide, by decide⟩

/-- A copy that fills the buffer, and the first iteration of a `FEED` accepted in state *Stalled*, which copies
nothing. -/
theorem witness_CopyThatFillsDelivers :
    (∃ (s : State) (f : Feed) (n : Nat), Inv s ∧ (nextTurn s).1 = .block ∧ s.feed = some f ∧ f.phase = .copy ∧
      f.pos < f.len ∧ n = min (s.cap - s.off) (f.len - f.pos) ∧ s.off + n = s.cap ∧ n = 1) ∧
    (∃ (s : State) (f : Feed) (n : Nat), Inv s ∧ (nextTurn s).1 = .block ∧ s.feed = some f ∧ f.phase = .copy ∧
      f.pos < f.len ∧ n = min (s.cap - s.off) (f.len - f.pos) ∧ s.off + n = s.cap ∧ n = 0) :=
  ⟨⟨aboutToFill, _, 1, inv_aboutToFill, rfl, rfl, rfl, by decide, by decide, by decide, rfl⟩,
    ⟨aboutToRetry, _, 0, inv_aboutToRetry, rfl, rfl, rfl, by decide, by decide, by decide, rfl⟩⟩

theorem witness_CompletionAnswersOk :
    ∃ (s : State) (f : Feed), Inv s ∧ (nextTurn s).1 = .block ∧ s.feed = some f ∧ f.phase = .copy ∧ f.pos = f.len :=
  ⟨aboutToComplete, _, inv_aboutToComplete, rfl, rfl, rfl, rfl⟩

theorem witness_AckResetsTheOffset :
    ∃ (s : State) (f : Feed) (fr : Frame) (rest : List Record), Inv s ∧ AtAnswer s [0x00#8] rest ∧
      s.feed = some f ∧ f.phase = .wait fr :=
  ⟨answering [0x00#8] awaiting, _, _, [], inv_withChannels inv_awaiting _ _ _, ⟨rfl, rfl⟩, rfl, rfl⟩

/-- The canonical NAK, and the empty record. -/
theorem witness_NakEndsTheFeed :
    (∃ (s : State) (f : Feed) (fr : Frame) (rest : List Record), Inv s ∧ AtAnswer s [0x01#8] rest ∧
      ([0x01#8] : Record) ≠ [0x00#8] ∧ s.feed = some f ∧ f.phase = .wait fr) ∧
    (∃ (s : State) (f : Feed) (fr : Frame) (rest : List Record), Inv s ∧ AtAnswer s [] rest ∧
      ([] : Record) ≠ [0x00#8] ∧ s.feed = some f ∧ f.phase = .wait fr) :=
  ⟨⟨answering [0x01#8] awaiting, _, _, [], inv_withChannels inv_awaiting _ _ _, ⟨rfl, rfl⟩, by decide, rfl, rfl⟩,
    ⟨answering [] awaiting, _, _, [], inv_withChannels inv_awaiting _ _ _, ⟨rfl, rfl⟩, by decide, rfl, rfl⟩⟩

theorem witness_StrayAnswerIsIgnored :
    AtAnswer (answering [0x00#8] partial3) [0x00#8] [] ∧ waiting (answering [0x00#8] partial3) = false :=
  ⟨⟨rfl, rfl⟩, by decide⟩

/-- A block that waits while two records and its own turn are scheduled. -/
theorem witness_WaitEndsOnlyByAnswerOrReset :
    ∃ s : State, waiting s = true ∧ s.ans = [] ∧ Agent.platform ∉ s.turns ∧ s.turns = [.producer, .block, .producer] ∧
      s.cmd = [(1, [0x03#8]), (2, [0xFF#8])] :=
  ⟨{ awaiting with turns := [.producer, .block, .producer], cmd := [(1, [0x03#8]), (2, [0xFF#8])] },
    by decide, rfl, by decide, rfl, rfl⟩

theorem witness_StalledFeedDeliversAgain :
    ∃ (s : State) (r : Nat) (xs : List Sample) (rest : List (Nat × Record)) (b : Record) (more : List Record),
      Inv s ∧ logicalState s = .stalled ∧ s.turns = [] ∧ 1 ≤ xs.length ∧ xs.length < 4294967296 ∧
      s.cmd = (r, encode (feedCommand xs)) :: rest ∧ s.ans = b :: more ∧ b ≠ [0x00#8] :=
  ⟨{ stalled4 with cmd := [(9, encode (feedCommand [9#16, 10#16]))], ans := [[0x01#8]], turns := [] },
    9, [9#16, 10#16], [], [0x01#8], [], inv_withChannels inv_stalled4 _ _ _, by decide, rfl, by decide, by decide, rfl,
    rfl, by decide⟩

/-- A sample that leaves room, and one that fills the buffer. -/
theorem witness_PushOneSample :
    (∃ (s : State) (r : Nat) (v : Int) (rest : List (Nat × Record)), Inv s ∧ logicalState s = .accumulating ∧
      s.busy = false ∧ s.turns = [] ∧ s.cmd = (r, encode (push v)) :: rest ∧ s.off + 1 < s.cap) ∧
    (∃ (s : State) (r : Nat) (v : Int) (rest : List (Nat × Record)) (more : List Record), Inv s ∧
      logicalState s = .accumulating ∧ s.busy = false ∧ s.turns = [] ∧ s.cmd = (r, encode (push v)) :: rest ∧
      s.off + 1 = s.cap ∧ s.ans = [0x00#8] :: more) :=
  ⟨⟨{ idle 4 [] with cmd := [(9, encode (push (-1)))], ans := [], turns := [] }, 9, -1, [],
      inv_withChannels inv_idle_empty _ _ _, by decide, rfl, rfl, rfl, by decide⟩,
    ⟨{ partial3 with cmd := [(9, encode (push 4))], ans := [[0x00#8]], turns := [] }, 9, 4, [], [],
      inv_withChannels inv_partial3 _ _ _, by decide, rfl, rfl, rfl, by decide, rfl⟩⟩

theorem witness_StepRunsTheDecodedCommand :
    (AtRecord (presenting [0x03#8] partial3) 9 [0x03#8] [] ∧ (presenting [0x03#8] partial3).busy = false) ∧
    decode [0x03#8] = .ok .endStream := ⟨⟨⟨rfl, rfl⟩, rfl⟩, rfl⟩

theorem witness_BusyRejectsEveryRecord :
    AtRecord (presenting [0xFF#8] awaiting) 9 [0xFF#8] [] ∧ (presenting [0xFF#8] awaiting).busy = true :=
  ⟨⟨rfl, rfl⟩, rfl⟩

theorem witness_IllegalRecordChangesNothing :
    (AtRecord (presenting [] partial3) 9 [] [] ∧ (presenting [] partial3).busy = false) ∧
    decode [] = .error .emptyRecord := ⟨⟨⟨rfl, rfl⟩, rfl⟩, rfl⟩

/-- An `ERR_ILLEGAL`, and the `ERR_SINK` of a refused frame. -/
theorem witness_ErrorEntryChangesNothing :
    (∃ (s t : State) (r : Nat) (e : Status) (n : Nat), step s = .next t ∧
      t.rsp = s.rsp ++ [(r, responseRecord (statusCode e) n)] ∧ n < 4294967296 ∧ e ≠ .ok ∧ e ≠ .errSink) ∧
    (∃ (s t : State) (r : Nat) (e : Status) (n : Nat), step s = .next t ∧
      t.rsp = s.rsp ++ [(r, responseRecord (statusCode e) n)] ∧ n < 4294967296 ∧ e ≠ .ok ∧ e = .errSink) :=
  ⟨⟨presenting [] partial3, _, 9, .errIllegal, 0, rfl, by decide, by decide, by decide, by decide⟩,
    ⟨answering [0x01#8] awaiting, _, 7, .errSink, 1, rfl, by decide, by decide, by decide, rfl⟩⟩

theorem witness_OneResponsePerRecord :
    step (presenting [0x03#8] partial3) = .next (after (presenting [0x03#8] partial3)) ∧
    (nextTurn (presenting [0x03#8] partial3)).1 ≠ .platform := ⟨rfl, by decide⟩

/-- A command record and an ACK, and a command record and a NAK. -/
theorem witness_CommandAndAnswerTogether :
    (∃ (s : State) (r : Nat) (b a : Record) (rest : List (Nat × Record)) (more : List Record),
      waiting s = true ∧ s.cmd = (r, b) :: rest ∧ s.ans = a :: more ∧ a = [0x00#8]) ∧
    (∃ (s : State) (r : Nat) (b a : Record) (rest : List (Nat × Record)) (more : List Record),
      waiting s = true ∧ s.cmd = (r, b) :: rest ∧ s.ans = a :: more ∧ a ≠ [0x00#8]) :=
  ⟨⟨{ awaiting with cmd := [(9, [0x03#8])], ans := [[0x00#8]] }, 9, [0x03#8], [0x00#8], [], [], by decide, rfl, rfl, rfl⟩,
    ⟨{ awaiting with cmd := [(9, [0x03#8])], ans := [[0x01#8]] }, 9, [0x03#8], [0x01#8], [], [], by decide, rfl, rfl,
      by decide⟩⟩

theorem witness_StepKeepsTheInvariants :
    ∃ s t : State, Inv s ∧ step s = .next t ∧ s.off < t.off := ⟨aboutToFill, _, inv_aboutToFill, rfl, by decide⟩

theorem witness_NoStepStops : Inv aboutToFill := inv_aboutToFill

/-- The ghost of a block that holds three samples and has delivered none, before a step that takes a fourth. -/
theorem witness_NoLossIsKept :
    ∃ (s t : State) (g : Ghost), Inv s ∧ NoLoss g s ∧ step s = .next t ∧ g.fed ≠ (g.after s t).fed :=
  ⟨aboutToFill, _, { fed := [1#16, 2#16, 3#16], emitted := [] }, inv_aboutToFill, rfl, rfl, by decide⟩

theorem witness_ParametersAreFixed : step aboutToFill = .next (after aboutToFill) := rfl

theorem witness_RateAndCapacityAreFixed :
    (∃ s t : State, step s = .next t ∧ s.cfgd = true ∧ t.cfgd = true) ∧ (partial3.cfgd = true ∧ partial3.busy = false) :=
  ⟨⟨aboutToFill, _, rfl, rfl, rfl⟩, rfl, rfl⟩

/-- `CFGD` set, and `CFGD` cleared. -/
theorem witness_CfgdChangesOnlySo :
    (∃ s t : State, step s = .next t ∧ s.cfgd = false ∧ t.cfgd = true) ∧
    (∃ s t : State, step s = .next t ∧ s.cfgd = true ∧ t.cfgd = false) :=
  ⟨⟨presenting [0x01#8, 0x64#8, 0x00#8, 0x00#8, 0x00#8] State.reset, _, rfl, rfl, rfl⟩,
    ⟨presenting [0x03#8] partial3, _, rfl, rfl, rfl⟩⟩

/-- `BUSY` set, and `BUSY` cleared. -/
theorem witness_BusyChangesOnlySo :
    (∃ s t : State, step s = .next t ∧ s.busy = false ∧ t.busy = true) ∧
    (∃ s t : State, step s = .next t ∧ s.busy = true ∧ t.busy = false) :=
  ⟨⟨presenting [0x02#8, 0x01#8, 0x00#8, 0x00#8, 0x00#8, 0x07#8, 0x00#8] partial3, _, rfl, rfl, rfl⟩,
    ⟨aboutToComplete, _, rfl, rfl, rfl⟩⟩

theorem witness_OnlyAFullBufferIsEmitted :
    ∃ s t : State, Inv s ∧ step s = .next t ∧ t.snk ≠ s.snk := ⟨aboutToFill, _, inv_aboutToFill, rfl, by decide⟩

theorem witness_PayloadIsCaptured :
    ∃ (s t : State) (f g : Feed), Inv s ∧ step s = .next t ∧ s.feed = some f ∧ t.feed = some g ∧ f.pos < g.pos :=
  ⟨aboutToCopy, _, _, _, inv_aboutToCopy, rfl, rfl, rfl, by decide⟩

theorem witness_StalledOnlyByRefusal :
    ∃ s t : State, Inv s ∧ step s = .next t ∧ logicalState s ≠ .stalled ∧ logicalState t = .stalled :=
  ⟨answering [0x01#8] awaiting, _, inv_withChannels inv_awaiting _ _ _, rfl, by decide, by decide⟩

/-- A step from each of the four logical states. -/
theorem witness_LifecycleGraph :
    (∃ s t : State, Inv s ∧ step s = .next t ∧ logicalState s = .accumulating) ∧
    (∃ s t : State, Inv s ∧ step s = .next t ∧ logicalState s = .transientlyFull) ∧
    (∃ s t : State, Inv s ∧ step s = .next t ∧ logicalState s = .stalled) ∧
    (∃ s t : State, Inv s ∧ step s = .next t ∧ logicalState s = .unconfigured ∧ logicalState t = .accumulating) :=
  ⟨⟨aboutToFill, _, inv_aboutToFill, rfl, by decide⟩, ⟨awaiting, _, inv_awaiting, rfl, by decide⟩,
    ⟨stalled4, _, inv_stalled4, rfl, by decide⟩, ⟨_, _, inv_unconfigured, rfl, by decide, by decide⟩⟩

theorem witness_RegistersFitTheirWidths : Inv awaiting ∧ awaiting.feed.isSome = true := ⟨inv_awaiting, rfl⟩

/-- A block whose own step is enabled, and one that waits. -/
theorem witness_BusyIsNeverFinal : (Inv aboutToFill ∧ aboutToFill.busy = true) ∧ (Inv awaiting ∧ awaiting.busy = true) :=
  ⟨⟨inv_aboutToFill, rfl⟩, inv_awaiting, rfl⟩

/-- A record that meets the conditions of error-free operation, and an ACK that does. -/
theorem witness_ErrorFreeOperation :
    (∃ s t : State, Inv s ∧ step s = .next t ∧
      (∀ r b rest, AtRecord s r b rest → s.busy = false ∧
        ((∃ rate cap, decode b = .ok (.cfg rate) ∧ s.cfgd = false ∧ framesize s.config.capMax rate = .accept cap) ∨
          (s.cfgd = true ∧ (decode b = .ok .endStream ∨ ∃ len payload, decode b = .ok (.feed len payload))))) ∧
      (∀ b rest, AtAnswer s b rest → b = [0x00#8]) ∧ t.rsp ≠ s.rsp) ∧
    (∃ s t : State, Inv s ∧ step s = .next t ∧ (∀ r b rest, ¬AtRecord s r b rest) ∧
      (∀ b rest, AtAnswer s b rest → b = [0x00#8]) ∧ t.off ≠ s.off) := by
  refine ⟨⟨presenting [0x03#8] partial3, _, inv_withChannels inv_partial3 _ _ _, rfl, ?_, ?_, by decide⟩,
    ⟨answering [0x00#8] awaiting, _, inv_withChannels inv_awaiting _ _ _, rfl, ?_, ?_, by decide⟩⟩
  · rintro r b rest ⟨-, h⟩
    cases h
    exact ⟨rfl, .inr ⟨rfl, .inl rfl⟩⟩
  · rintro b rest ⟨h, -⟩
    cases h
  · rintro r b rest ⟨h, -⟩
    cases h
  · rintro b rest ⟨-, h⟩
    cases h
    rfl

theorem witness_InstancesAreIndependent :
    ∃ (k : Nat) (ss : List State) (s t : State), ss[k]? = some s ∧ step s = .next t ∧ ss.length = 2 :=
  ⟨1, [partial3, aboutToFill], _, _, rfl, rfl, rfl⟩

/-- V-F5: two samples fed to a buffer with room for one; the one DELIVER is answered ACK. -/
theorem witness_FeedClosedFormAccepted :
    ∃ (s : State) (r : Nat) (xs stream : List Sample) (k : Nat) (rest : List (Nat × Record)) (more : List Record),
      Inv s ∧ s.busy = false ∧ s.cfgd = true ∧ s.turns = [] ∧ 1 ≤ xs.length ∧ xs.length < 4294967296 ∧
      s.cmd = (r, encode (feedCommand xs)) :: rest ∧ stream = bufSamples s ++ xs ∧
      k = (s.off + xs.length) / s.cap ∧ s.ans = List.replicate k [0x00#8] ++ more ∧ k = 1 :=
  ⟨{ partial3 with cmd := [(9, encode (feedCommand [10#16, 11#16]))], ans := [[0x00#8]], turns := [] }, 9,
    [10#16, 11#16], _, 1, [], [], inv_withChannels inv_partial3 _ _ _, rfl, rfl, rfl, by decide, by decide, rfl, rfl,
    by decide, rfl, rfl⟩

/-- V-N1: ten samples, ACK and then NAK. -/
theorem witness_FeedClosedFormRefused :
    ∃ (s : State) (r : Nat) (xs stream : List Sample) (m : Nat) (rest : List (Nat × Record)) (a : Record)
      (more : List Record),
      Inv s ∧ s.busy = false ∧ s.cfgd = true ∧ s.turns = [] ∧ 1 ≤ xs.length ∧ xs.length < 4294967296 ∧
      s.cmd = (r, encode (feedCommand xs)) :: rest ∧ stream = bufSamples s ++ xs ∧
      1 ≤ m ∧ m ≤ (s.off + xs.length) / s.cap ∧ a ≠ [0x00#8] ∧
      s.ans = List.replicate (m - 1) [0x00#8] ++ a :: more ∧ m = 2 :=
  ⟨{ idle 4 [] with cmd := [(9, encode (feedr 1 10))], ans := [[0x00#8], [0x01#8]], turns := [] }, 9, ramp 1 10, _, 2,
    [], [0x01#8], [], inv_withChannels inv_idle_empty _ _ _, rfl, rfl, rfl, by decide, by decide, rfl, rfl, by decide,
    by decide, by decide, rfl, rfl⟩

/-- Nine samples in three pieces, one of them empty. -/
theorem witness_ChunkingInvariance :
    ∃ (s : State) (k : Nat) (pieces : List (List Sample)),
      Inv s ∧ s.busy = false ∧ s.cfgd = true ∧ s.turns = [] ∧ pieces.flatten.length < 4294967296 ∧
      (s.off + pieces.flatten.length) / s.cap ≤ k ∧ s.ans = List.replicate k [0x00#8] ∧ pieces.length = 3 ∧ k = 2 :=
  ⟨{ idle 4 [] with cmd := [], ans := [[0x00#8], [0x00#8]], turns := [] }, 2, [ramp 1 3, [], ramp 4 6],
    inv_withChannels inv_idle_empty _ _ _, rfl, rfl, rfl, by decide, by decide, rfl, rfl, rfl⟩

end Sys2Proof.Tests
end

section
/-! The parameters of the block, and the widths of its registers (R5, R9, R21, R140). -/

namespace Sys2Proof

/-- `CAPW` bits hold `CAP_MAX` (R5). -/
theorem Config.capMax_lt_two_pow_capw (c : Config) : c.capMax < 2 ^ c.capw := Nat.lt_log2_self

end Sys2Proof

namespace Sys2Proof.Machine

/-! ### The parameters -/

@[simp] theorem presented_config (s : State) (r : Nat) (rest : List (Nat × Record)) :
    (presented s r rest).config = s.config := rfl

/-- ITER, with or without its DELIVER, leaves the parameters alone. -/
theorem iterStep_config {f : Feed} {s t : State} (h : iterStep f s = .next t) : t.config = s.config := by
  obtain ⟨xs, m, -, -, ⟨-, rfl⟩ | ⟨-, ys, -, rfl⟩⟩ := iterStep_cases f s t h
  · exact afterCopy_config f m s
  · rw [deliver_config, beginWait_config, afterCopy_config]

/-- No kind of step writes the parameters (R5). -/
theorem StepCase.config_eq {s t : State} (h : StepCase s t) : t.config = s.config := by
  cases h with
  | quiet _ _ _ _ cfg => exact cfg
  | iterated f _ _ _ _ _ eq => rw [iterStep_config eq]
  | reset _ eq | rejected _ _ _ _ _ _ eq | emptyFeed _ _ _ _ _ _ _ _ _ _ eq | configured _ _ _ _ _ _ _ _ _ _ eq
  | accepted _ _ _ _ _ _ _ _ _ _ eq | closed _ _ _ _ _ _ _ eq | completed _ _ _ _ _ _ eq
  | acked _ _ _ _ _ _ _ _ _ eq | naked _ _ _ _ _ _ _ _ _ eq => simp [eq]

/-! ### The widths -/

/-- The capacity never exceeds the physical depth, on an unconfigured block either (I1, I2). -/
theorem Inv.cap_le_capMax {s : State} (h : Inv s) : s.cap ≤ s.config.capMax := by
  cases hc : s.cfgd with
  | false =>
    obtain ⟨-, hcap, -, -⟩ := h.unconfigured hc
    omega
  | true =>
    obtain ⟨-, -, -, hcap⟩ := h.configured hc
    exact hcap

/-- `CAP - OFF` borrows nothing (I3, R140). -/
theorem Inv.room_add_off {s : State} (h : Inv s) : room s + s.off = s.cap := Nat.sub_add_cancel h.off_le

theorem copyCount_le_room (f : Feed) (s : State) : copyCount f s ≤ room s := Nat.min_le_left _ _

theorem copyCount_le_remaining (f : Feed) (s : State) : copyCount f s ≤ f.len - f.pos := Nat.min_le_right _ _

/-- `OFF + n` stays within `CAP` (R72, R140). -/
theorem Inv.off_add_copyCount_le {s : State} (h : Inv s) (f : Feed) : s.off + copyCount f s ≤ s.cap := by
  have hn := copyCount_le_room f s
  have hr := h.room_add_off
  omega

/-- `POS + n` stays within `LEN` (R72, R140). -/
theorem FeedOk.pos_add_copyCount_le {s : State} {f : Feed} (h : FeedOk s f) : f.pos + copyCount f s ≤ f.len := by
  have hn := copyCount_le_remaining f s
  have hp := h.pos_le
  omega

end Sys2Proof.Machine

namespace Sys2Proof.Proofs
open Sys2Proof.Machine

/-- Settles O41, by the kinds of step. -/
theorem parametersAreFixed : Obligations.ParametersAreFixed :=
  fun s t h => (stepCase_of_step s t h).config_eq

/-- Settles O49: `OFF <= CAP <= CAP_MAX < 2^CAPW`, and `POS <= LEN < 2^32`. -/
theorem registersFitTheirWidths : Obligations.RegistersFitTheirWidths := by
  intro s h
  have hmax := s.config.capMax_lt_two_pow_capw
  have hcap : s.cap < 2 ^ s.config.capw := h.cap_le_capMax.trans_lt hmax
  refine ⟨hmax, hcap, h.off_le.trans_lt hcap, h.room_add_off, fun f hf => ?_⟩
  have k : FeedOk s f := h.feed_ok f hf
  exact ⟨k.len_lt, k.pos_le.trans_lt k.len_lt, Nat.sub_add_cancel k.pos_le, h.off_add_copyCount_le f,
    k.pos_add_copyCount_le⟩

end Sys2Proof.Proofs
end

section
/-! The equations of the two kinds of step a statement names by its event: a record presented to an idle block, and
reset (R106, R120). -/

namespace Sys2Proof

theorem decodeCfg_wf {rest : List Byte} {i : Instr} (h : decodeCfg rest = .ok i) : i.wf = true := by
  unfold decodeCfg at h
  split at h <;> cases h
  rfl

theorem decodeFeed_wf {rest : List Byte} {i : Instr} (h : decodeFeed rest = .ok i) : i.wf = true := by
  unfold decodeFeed at h
  split at h
  · split at h <;> cases h
    simpa [Instr.wf]
  · cases h

theorem decodeEnd_wf {rest : List Byte} {i : Instr} (h : decodeEnd rest = .ok i) : i.wf = true := by
  unfold decodeEnd at h
  split at h <;> cases h
  rfl

/-- A record that decodes decodes to a well-formed command (R50). -/
theorem decode_wf {b : Record} {i : Instr} (h : decode b = .ok i) : i.wf = true := by
  unfold decode at h
  split at h
  · cases h
  · split at h
    · exact decodeCfg_wf h
    · split at h
      · exact decodeFeed_wf h
      · split at h
        · exact decodeEnd_wf h
        · cases h

/-- The payload of a `FEED` that was decoded is `2*L` bytes (R50). -/
theorem decode_feed_length {b : Record} {len : Word} {payload : List Byte} (h : decode b = .ok (.feed len payload)) :
    payload.length = 2 * len.toNat := by
  simpa [Instr.wf] using decode_wf h

end Sys2Proof

namespace Sys2Proof.Machine

/-- A presented record begins in the state with itself and its turn taken off (R45). -/
theorem step_of_atRecord {s : State} {r : Nat} {b : Record} {rest : List (Nat × Record)} (h : AtRecord s r b rest) :
    step s = beginRecord b (presented s r rest) := by
  obtain ⟨ha, hc⟩ := h
  simp only [step, ha, nextTurn_snd, agentMove, producerMove, hc]
  rfl

/-- A legal record runs its command on an idle block (R109). -/
theorem beginRecord_of_decode {s : State} {b : Record} {i : Instr} (hb : s.busy = false) (hd : decode b = .ok i) :
    beginRecord b s = exec i s := by
  simp [beginRecord, hb, hd]

theorem step_of_command {s : State} {r : Nat} {b : Record} {rest : List (Nat × Record)} {i : Instr}
    (h : AtRecord s r b rest) (hb : s.busy = false) (hd : decode b = .ok i) :
    step s = exec i (presented s r rest) :=
  (step_of_atRecord h).trans (beginRecord_of_decode hb hd)

theorem step_of_platform {s : State} (h : (nextTurn s).1 = .platform) :
    step s = .next (applyReset { s with turns := s.turns.tail }) := by
  simp only [step, h, nextTurn_snd, agentMove]

/-- `CFG` with an acceptable rate on an idle, unconfigured block (R61). -/
theorem exec_cfg_of_accept {s : State} {rate : Word} {cap : Nat} (hb : s.busy = false) (hc : s.cfgd = false)
    (hf : framesize s.config.capMax rate = .accept cap) :
    exec (.cfg rate) s = .next (respond s.port .ok 0 (configure rate cap s)) := by
  simp [exec, execCfg, hb, hc, hf]

/-- `END` on an idle, configured block (R62). -/
theorem exec_endStream_of_configured {s : State} (hb : s.busy = false) (hc : s.cfgd = true) :
    exec .endStream s = .next (respond s.port .ok 0 (clearRegisters s)) := by
  simp [exec, execEndStream, hb, hc]

end Sys2Proof.Machine
end

section
/-! The answers of the sink, and the logical state, read from the registers (R19, R56). -/

namespace Sys2Proof.Machine

theorem isAck_iff (b : Record) : isAck b = true ↔ b = [0x00#8] := by
  simp [isAck, ackRecord]

theorem logicalState_of_unconfigured {s : State} (hc : s.cfgd = false) : logicalState s = .unconfigured := by
  simp [logicalState, hc]

theorem logicalState_of_room {s : State} (hc : s.cfgd = true) (ho : s.off ≠ s.cap) :
    logicalState s = .accumulating := by
  simp [logicalState, hc, ho]

theorem logicalState_of_full_busy {s : State} (hc : s.cfgd = true) (ho : s.off = s.cap) (hb : s.busy = true) :
    logicalState s = .transientlyFull := by
  simp [logicalState, hc, ho, hb]

theorem logicalState_of_full_idle {s : State} (hc : s.cfgd = true) (ho : s.off = s.cap) (hb : s.busy = false) :
    logicalState s = .stalled := by
  simp [logicalState, hc, ho, hb]

theorem logicalState_eq_stalled_iff (s : State) :
    logicalState s = .stalled ↔ s.cfgd = true ∧ s.off = s.cap ∧ s.busy = false := by
  cases hc : s.cfgd <;> cases hb : s.busy <;> by_cases ho : s.off = s.cap <;> simp [logicalState, hc, hb, ho]

theorem logicalState_eq_transientlyFull_iff (s : State) :
    logicalState s = .transientlyFull ↔ s.cfgd = true ∧ s.off = s.cap ∧ s.busy = true := by
  cases hc : s.cfgd <;> cases hb : s.busy <;> by_cases ho : s.off = s.cap <;> simp [logicalState, hc, hb, ho]

theorem logicalState_of_sameRegisters {s t : State} (h : SameRegisters s t) : logicalState t = logicalState s := by
  obtain ⟨-, hcap, hoff, -, hcfgd, hbusy, -⟩ := h
  simp only [logicalState, hcap, hoff, hcfgd, hbusy]

end Sys2Proof.Machine
end

section
/-! What each operation of the block does to the invariants (R23). -/

namespace Sys2Proof.Machine

/-! ### States with the same registers -/

theorem sameRegisters_presented (s : State) (r : Nat) (rest : List (Nat × Record)) :
    SameRegisters s (presented s r rest) := ⟨rfl, rfl, rfl, rfl, rfl, rfl, rfl⟩

theorem sameRegisters_withAnswers (s : State) (turns : List Agent) (ans : List Record) :
    SameRegisters s { s with turns := turns, ans := ans } := ⟨rfl, rfl, rfl, rfl, rfl, rfl, rfl⟩

theorem sameRegisters_respond (r : Nat) (st : Status) (n : Nat) (s : State) : SameRegisters s (respond r st n s) :=
  ⟨rfl, rfl, rfl, rfl, rfl, rfl, rfl⟩

theorem inv_presented {s : State} (h : Inv s) (r : Nat) (rest : List (Nat × Record)) : Inv (presented s r rest) :=
  inv_of_sameRegisters h (sameRegisters_presented s r rest) rfl

theorem inv_withAnswers {s : State} (h : Inv s) (turns : List Agent) (ans : List Record) :
    Inv { s with turns := turns, ans := ans } :=
  inv_of_sameRegisters h (sameRegisters_withAnswers s turns ans) rfl

theorem inv_respond {s : State} (h : Inv s) (r : Nat) (st : Status) (n : Nat) : Inv (respond r st n s) :=
  inv_of_sameRegisters h (sameRegisters_respond r st n s) rfl

theorem inv_raise {s : State} (h : Inv s) (e : Status) : Inv (raise e s) := inv_respond h s.port e 0

/-! ### No `FEED` in progress -/

/-- An idle block has no sequencer state (R21). -/
theorem Inv.feed_eq_none {s : State} (h : Inv s) (hb : s.busy = false) : s.feed = none := by
  simpa [hb] using h.busy_feed

/-- A block whose registers are those of R25 meets the invariants. -/
theorem inv_of_resetRegisters {s : State} (hw : s.config.wf = true) (h : SameRegisters State.reset s) : Inv s := by
  obtain ⟨hsrate, hcap, hoff, hbuf, hcfgd, hbusy, hfeed⟩ := h
  constructor
  · exact hw
  · rw [hbuf]; rfl
  · exact fun _ => ⟨hsrate, hcap, hoff, hbusy⟩
  · rw [hcfgd]; exact nofun
  · rw [hoff, hcap]; exact le_rfl
  · rw [hbuf, hoff]; rfl
  · rw [hbusy, hfeed]; rfl
  · rw [hfeed]; exact nofun

theorem inv_applyReset {s : State} (h : Inv s) : Inv (applyReset s) :=
  inv_of_resetRegisters h.config_wf ⟨rfl, rfl, rfl, rfl, rfl, rfl, rfl⟩

theorem inv_clearRegisters {s : State} (h : Inv s) (hb : s.busy = false) : Inv (clearRegisters s) :=
  inv_of_resetRegisters h.config_wf ⟨rfl, rfl, rfl, rfl, rfl, hb, h.feed_eq_none hb⟩

/-- A successful `CFG` on an idle block: I2 is what the calculator answers (R60). -/
theorem inv_configure {s : State} {rate : Word} {cap : Nat} (h : Inv s) (hb : s.busy = false)
    (hf : framesize s.config.capMax rate = .accept cap) : Inv (configure rate cap s) := by
  obtain ⟨hcap, hdiv, hpos, hmax⟩ := framesize_accept _ _ _ hf
  exact
    { config_wf := h.config_wf
      mem_wf := rfl
      unconfigured := nofun
      configured := fun _ => ⟨hdiv, hcap, hpos, hmax⟩
      off_le := Nat.zero_le _
      cells := rfl
      busy_feed := h.busy_feed
      feed_ok := by rw [configure_feed, h.feed_eq_none hb]; exact nofun }

/-! ### The stream of an open block -/

/-- The parameters, the rate, the capacity and `CFGD` are the same in the two states: what no step of a `FEED`
writes. -/
def SameStream (s t : State) : Prop :=
  t.config = s.config ∧ t.srate = s.srate ∧ t.cap = s.cap ∧ t.cfgd = s.cfgd

/-- ITER writes the buffer, the fill offset, the sequencer and the DELIVER channel only. -/
theorem iterStep_sameStream {f : Feed} {s t : State} (h : iterStep f s = .next t) : SameStream s t := by
  obtain ⟨xs, m, -, -, ⟨-, rfl⟩ | ⟨-, ys, -, rfl⟩⟩ := iterStep_cases f s t h <;> exact ⟨rfl, rfl, rfl, rfl⟩

theorem iterStep_off {f : Feed} {s t : State} (h : iterStep f s = .next t) : t.off = s.off + copyCount f s := by
  obtain ⟨xs, m, -, -, ⟨-, rfl⟩ | ⟨-, ys, -, rfl⟩⟩ := iterStep_cases f s t h <;> rfl

theorem iterStep_busy {f : Feed} {s t : State} (h : iterStep f s = .next t) : t.busy = s.busy := by
  obtain ⟨xs, m, -, -, ⟨-, rfl⟩ | ⟨-, ys, -, rfl⟩⟩ := iterStep_cases f s t h <;> rfl

/-- In an open stream the invariants are those of the buffer and of the sequencer: I1 and I2 come with the stream. -/
theorem inv_of_sameStream {s t : State} (h : Inv s) (hc : s.cfgd = true) (same : SameStream s t)
    (off_le : t.off ≤ t.cap) (mem_wf : Memory.wf t.buf = true) (cells : t.buf.map Prod.fst = List.range t.off)
    (busy_feed : t.busy = t.feed.isSome) (feed_ok : ∀ f ∈ t.feed, FeedOk t f) : Inv t := by
  obtain ⟨hconfig, hsrate, hcap, hcfgd⟩ := same
  constructor
  · rw [hconfig]; exact h.config_wf
  · exact mem_wf
  · rw [hcfgd, hc]; exact nofun
  · rw [hsrate, hcap, hconfig]; exact fun _ => h.configured hc
  · exact off_le
  · exact cells
  · exact busy_feed
  · exact feed_ok

/-- A `FEED` of `L >= 1` samples starts at the beginning of its payload (R70). -/
theorem inv_acceptFeed {s : State} {len : Word} {payload : List Byte} (h : Inv s) (hc : s.cfgd = true)
    (hl : 1 ≤ len.toNat) (hp : payload.length = 2 * len.toNat) : Inv (acceptFeed len payload s) := by
  refine inv_of_sameStream h hc ⟨rfl, rfl, rfl, rfl⟩ h.off_le h.mem_wf h.cells rfl ?_
  rintro f ⟨⟩
  exact
    { configured := hc
      len_pos := hl
      len_lt := len.isLt
      pos_le := Nat.zero_le _
      input_len := hp
      copy_full := fun _ _ => rfl
      wait_full := nofun }

/-- The end of a `FEED`, by NAK or by completion, leaves the stream and the buffer (R74, R89). -/
theorem inv_endFeed {s : State} (h : Inv s) (hc : s.cfgd = true) : Inv { s with busy := false, feed := none } :=
  inv_of_sameStream h hc ⟨rfl, rfl, rfl, rfl⟩ h.off_le h.mem_wf h.cells rfl nofun

theorem Inv.feedOk {s : State} {f : Feed} (h : Inv s) (hf : s.feed = some f) : FeedOk s f := h.feed_ok f (by simp [hf])

theorem inv_flushNak {s : State} {f : Feed} (h : Inv s) (hf : s.feed = some f) : Inv (flushNak f s) :=
  inv_respond (inv_endFeed h (h.feedOk hf).configured) f.requester .errSink f.pos

theorem inv_completeStep {s : State} {f : Feed} (h : Inv s) (hf : s.feed = some f) : Inv (completeStep f s) :=
  inv_respond (inv_endFeed h (h.feedOk hf).configured) f.requester .ok f.len

/-- A configured block has at least one cell (I2). -/
theorem Inv.cap_pos {s : State} (h : Inv s) (hc : s.cfgd = true) : 1 ≤ s.cap := by
  obtain ⟨-, -, hpos, -⟩ := h.configured hc
  exact hpos

/-- ACK empties the buffer, which has room again because `CAP >= 1` (R88). -/
theorem inv_flushAck {s : State} {f : Feed} (h : Inv s) (hb : s.busy = true) (hf : s.feed = some f) :
    Inv (flushAck f s) := by
  have k := h.feedOk hf
  have hcap := h.cap_pos k.configured
  refine inv_of_sameStream h k.configured ⟨rfl, rfl, rfl, rfl⟩ (Nat.zero_le _) rfl rfl hb ?_
  rintro g ⟨⟩
  exact { k with
    copy_full := fun _ hoff => by simp only [flushAck_off, flushAck_cap] at hoff; omega
    wait_full := nofun }

/-- ITER keeps the invariants: a copy that leaves room goes on copying, and one that fills the buffer waits for the
frame it has just read from it (R71 to R73, R86). -/
theorem inv_iterStep {s t : State} {f : Feed} (h : Inv s) (hb : s.busy = true) (hf : s.feed = some f)
    (hp : f.phase = .copy) (hs : iterStep f s = .next t) : Inv t := by
  have k := h.feedOk hf
  have hoff := h.off_add_copyCount_le f
  have hpos := k.pos_add_copyCount_le
  obtain ⟨xs, m, hxs, -, hm, hcells, -, hwf⟩ := copy_ok s f h hf
  obtain ⟨xs', m', hxs', hm', hcase⟩ := iterStep_cases f s t hs
  obtain rfl : xs = xs' := Option.some.inj (hxs.symm.trans hxs')
  obtain rfl : m = m' := Option.some.inj (hm.symm.trans hm')
  obtain ⟨hfull, rfl⟩ | ⟨hfull, ys, hys, rfl⟩ := hcase
  · refine inv_of_sameStream h k.configured ⟨rfl, rfl, rfl, rfl⟩ hoff hwf hcells hb ?_
    rintro g ⟨⟩
    have hroom : s.off + copyCount f s ≠ s.cap := by simpa [full, k.configured] using hfull
    exact { k with
      pos_le := hpos
      copy_full := fun _ ho => absurd ho hroom
      wait_full := by simp [hp, Phase.inflight] }
  · refine inv_of_sameStream h k.configured ⟨rfl, rfl, rfl, rfl⟩ hoff hwf hcells hb ?_
    rintro g ⟨⟩
    have hfill : s.off + copyCount f s = s.cap := by simpa [full, k.configured] using hfull
    exact { k with
      pos_le := hpos
      copy_full := nofun
      wait_full := by rintro fr ⟨⟩; exact ⟨hfill, rfl, hys⟩ }

/-! ### Every step -/

/-- Every kind of step keeps the invariants (R23). -/
theorem StepCase.inv {s t : State} (c : StepCase s t) (h : Inv s) : Inv t := by
  have hturn : Inv { s with turns := s.turns.tail } := inv_withAnswers h _ _
  cases c with
  | quiet regs _ _ _ cfg => exact inv_of_sameRegisters h regs cfg
  | reset _ eq => exact eq ▸ inv_applyReset hturn
  | rejected r _ rest e _ _ eq => exact eq ▸ inv_raise (inv_presented h r rest) e
  | emptyFeed r _ rest _ _ _ _ _ _ _ eq => exact eq ▸ inv_respond (inv_presented h r rest) r _ _
  | configured r _ rest _ _ _ idle _ _ acc eq =>
    exact eq ▸ inv_respond (inv_configure (inv_presented h r rest) idle acc) r _ _
  | accepted r _ rest _ _ _ _ cfgd dec pos eq =>
    exact eq ▸ inv_acceptFeed (inv_presented h r rest) cfgd pos (decode_feed_length dec)
  | closed r _ rest _ idle _ _ eq => exact eq ▸ inv_respond (inv_clearRegisters (inv_presented h r rest) idle) r _ _
  | iterated f _ busy feed copy _ eq => exact inv_iterStep hturn busy feed copy eq
  | completed f _ _ feed _ _ eq => exact eq ▸ inv_completeStep hturn feed
  | acked f _ _ rest _ busy feed _ _ eq => exact eq ▸ inv_flushAck (inv_withAnswers h _ rest) busy feed
  | naked f _ _ rest _ _ feed _ _ eq => exact eq ▸ inv_flushNak (inv_withAnswers h _ rest) feed

end Sys2Proof.Machine

namespace Sys2Proof.Proofs
open Sys2Proof.Machine

/-- Settles O38, by the kinds of step. -/
theorem stepKeepsTheInvariants : Obligations.StepKeepsTheInvariants :=
  fun s t h hst => (stepCase_of_step s t hst).inv h

/-- Settles O11: the values stand in `State.reset`. -/
theorem resetValues : Obligations.ResetValues :=
  ⟨rfl, rfl, rfl, fun _ => rfl, rfl, rfl, rfl, logicalState_of_unconfigured rfl⟩

/-- Settles O12: `CAP_MAX = 1920` is in its range, and the registers are those of R25. -/
theorem resetMeetsTheInvariants : Obligations.ResetMeetsTheInvariants :=
  inv_of_resetRegisters (by decide) ⟨rfl, rfl, rfl, rfl, rfl, rfl, rfl⟩

end Sys2Proof.Proofs
end

section
/-! A block that meets the invariants never stops (R15, R36, R100). -/

namespace Sys2Proof.Machine

/-- ITER makes no access that R15 and R36 exclude, whether or not the copy fills the buffer. -/
theorem iterStep_next {s : State} {f : Feed} (h : Inv s) (hf : s.feed = some f) : ∃ t, iterStep f s = .next t := by
  rcases (h.off_add_copyCount_le f).lt_or_eq with hroom | hfill
  · obtain ⟨_, _, -, -, -, -, -, hs⟩ := iterStep_partial s f h hf hroom
    exact ⟨_, hs⟩
  · obtain ⟨_, _, -, -, -, -, -, -, hs⟩ := iterStep_filling s f h hf hfill
    exact ⟨_, hs⟩

theorem ownStep_next {s : State} (h : Inv s) : ∃ t, ownStep s = .next t := by
  unfold ownStep
  split
  · rename_i f _ hf
    split
    · exact ⟨_, rfl⟩
    · split
      · exact iterStep_next h hf
      · split <;> exact ⟨_, rfl⟩
  · exact ⟨_, rfl⟩

/-- No record stops the machine, from any state. -/
theorem beginRecord_next (b : Record) (s : State) : ∃ t, beginRecord b s = .next t := by
  unfold beginRecord
  split
  · exact ⟨_, rfl⟩
  · split
    · exact ⟨_, rfl⟩
    · exact exec_next _ s

theorem producerMove_next (s : State) : ∃ t, producerMove s = .next t := by
  unfold producerMove
  split
  · exact beginRecord_next _ _
  · exact ⟨_, rfl⟩

theorem agentMove_next {s : State} (h : Inv s) (a : Agent) : ∃ t, agentMove a s = .next t :=
  match a with
  | .block => ownStep_next h
  | .producer => producerMove_next s
  | .sink => ⟨_, rfl⟩
  | .platform => ⟨_, rfl⟩

end Sys2Proof.Machine

namespace Sys2Proof.Proofs
open Sys2Proof.Machine

/-- Settles O39: whichever agent moves, its move answers a next state. -/
theorem noStepStops : Obligations.NoStepStops := by
  intro s h
  have hturn : Inv (nextTurn s).2 := nextTurn_snd s ▸ inv_withAnswers h _ _
  exact agentMove_next hturn (nextTurn s).1

end Sys2Proof.Proofs
end

section
/-! What a command leaves alone, and what it answers (R24, R53, R93). -/

namespace Sys2Proof.Machine

/-- What every command does to the channels: the environment's side and the schedule stay, no DELIVER is sent, and at
most one response goes to the requester at hand. -/
def CommandFrame (s t : State) : Prop :=
  SameEnvironment s t ∧ t.turns = s.turns ∧ t.snk = s.snk ∧
    (t.rsp = s.rsp ∨ ∃ rec, t.rsp = s.rsp ++ [(s.port, rec)])

theorem commandFrame_raise (e : Status) (s : State) : CommandFrame s (raise e s) :=
  ⟨⟨rfl, rfl, rfl, rfl⟩, rfl, rfl, .inr ⟨_, rfl⟩⟩

theorem exec_commandFrame {i : Instr} {s t : State} (h : exec i s = .next t) : CommandFrame s t := by
  cases i with
  | cfg rate =>
    obtain ⟨e, -, rfl⟩ | ⟨-, -, cap, -, rfl⟩ := execCfg_cases rate s t h
    · exact commandFrame_raise e s
    · exact ⟨⟨rfl, rfl, rfl, rfl⟩, rfl, rfl, .inr ⟨_, rfl⟩⟩
  | feed len payload =>
    obtain ⟨e, -, rfl⟩ | ⟨-, -, -, rfl⟩ | ⟨-, -, -, rfl⟩ := execFeed_cases len payload s t h
    · exact commandFrame_raise e s
    · exact ⟨⟨rfl, rfl, rfl, rfl⟩, rfl, rfl, .inr ⟨_, rfl⟩⟩
    · exact ⟨⟨rfl, rfl, rfl, rfl⟩, rfl, rfl, .inl rfl⟩
  | endStream =>
    obtain ⟨e, -, rfl⟩ | ⟨-, -, rfl⟩ := execEndStream_cases s t h
    · exact commandFrame_raise e s
    · exact ⟨⟨rfl, rfl, rfl, rfl⟩, rfl, rfl, .inr ⟨_, rfl⟩⟩

/-- The acceptance step of a `FEED` copies nothing yet (R70; log entry 18). -/
theorem execFeed_stream {len : Word} {payload : List Byte} {s t : State} (h : execFeed len payload s = .next t) :
    SameStream s t ∧ t.off = s.off ∧ t.buf = s.buf := by
  obtain ⟨e, -, rfl⟩ | ⟨-, -, -, rfl⟩ | ⟨-, -, -, rfl⟩ := execFeed_cases len payload s t h <;>
    exact ⟨⟨rfl, rfl, rfl, rfl⟩, rfl, rfl⟩

theorem execCfg_sequencer {rate : Word} {s t : State} (h : execCfg rate s = .next t) :
    t.busy = s.busy ∧ t.feed = s.feed := by
  obtain ⟨e, -, rfl⟩ | ⟨-, -, cap, -, rfl⟩ := execCfg_cases rate s t h <;> exact ⟨rfl, rfl⟩

theorem execEndStream_sequencer {s t : State} (h : execEndStream s = .next t) :
    t.busy = s.busy ∧ t.feed = s.feed := by
  obtain ⟨e, -, rfl⟩ | ⟨-, -, rfl⟩ := execEndStream_cases s t h <;> exact ⟨rfl, rfl⟩

end Sys2Proof.Machine

namespace Sys2Proof.Proofs
open Sys2Proof.Machine

/-- Settles O20, from the frames of the three commands. -/
theorem commandFrames : Obligations.CommandFrames := by
  intro i s t h
  obtain ⟨henv, hturns, hsnk, hrsp⟩ := exec_commandFrame h
  refine ⟨henv, hturns, hsnk, hrsp, ?_, ?_⟩
  · rintro len payload rfl
    obtain ⟨⟨-, hsrate, hcap, hcfgd⟩, hoff, hbuf⟩ := execFeed_stream h
    exact ⟨hsrate, hcap, hoff, hcfgd, fun k => by rw [hbuf]⟩
  · rintro (rfl | ⟨rate, rfl⟩)
    · exact execEndStream_sequencer h
    · exact execCfg_sequencer h

end Sys2Proof.Proofs
end

section
/-! By which events `CFGD` and `BUSY` change (R16, R17). -/

namespace Sys2Proof.Machine

/-- `CFGD` changes by reset, by a successful `CFG` and by `END`, and by no other kind of step. -/
theorem StepCase.cfgd_cases {s t : State} (c : StepCase s t) :
    t.cfgd = s.cfgd ∨ ((nextTurn s).1 = .platform ∧ t.cfgd = false) ∨
    (t.cfgd = true ∧ ∃ r b rest rate cap, AtRecord s r b rest ∧ s.busy = false ∧ decode b = .ok (.cfg rate) ∧
      framesize s.config.capMax rate = .accept cap) ∨
    (t.cfgd = false ∧ ∃ r b rest, AtRecord s r b rest ∧ s.busy = false ∧ decode b = .ok .endStream) := by
  cases c with
  | quiet regs =>
    obtain ⟨-, -, -, -, hcfgd, -, -⟩ := regs
    exact .inl hcfgd
  | reset turn eq => exact .inr (.inl ⟨turn, by rw [eq, applyReset_cfgd]⟩)
  | configured r b rest rate cap at_ idle _ dec acc eq =>
    exact .inr (.inr (.inl ⟨by rw [eq, respond_cfgd, configure_cfgd], r, b, rest, rate, cap, at_, idle, dec, acc⟩))
  | closed r b rest at_ idle _ dec eq =>
    exact .inr (.inr (.inr ⟨by rw [eq, respond_cfgd, clearRegisters_cfgd], r, b, rest, at_, idle, dec⟩))
  | iterated f _ _ _ _ _ eq =>
    obtain ⟨-, -, -, hcfgd⟩ := iterStep_sameStream eq
    exact .inl hcfgd
  | rejected _ _ _ _ _ _ eq | emptyFeed _ _ _ _ _ _ _ _ _ _ eq | accepted _ _ _ _ _ _ _ _ _ _ eq
  | completed _ _ _ _ _ _ eq | acked _ _ _ _ _ _ _ _ _ eq | naked _ _ _ _ _ _ _ _ _ eq => exact .inl (by rw [eq]; rfl)

/-- `BUSY` changes by reset, by the acceptance of a `FEED`, and with the one response of a `FEED` in progress: `OK` when
its whole payload is taken, `ERR_SINK` when the frame in flight is refused. -/
theorem StepCase.busy_cases {s t : State} (c : StepCase s t) :
    t.busy = s.busy ∨ ((nextTurn s).1 = .platform ∧ t.busy = false) ∨
    (t.busy = true ∧ ∃ r b rest len payload, AtRecord s r b rest ∧ s.cfgd = true ∧
      decode b = .ok (.feed len payload) ∧ 1 ≤ len.toNat) ∨
    (t.busy = false ∧ ∃ f, s.feed = some f ∧ f.phase = .copy ∧ f.pos = f.len ∧
      t.rsp = s.rsp ++ [(f.requester, responseRecord 0x00#8 f.len)]) ∨
    (t.busy = false ∧ ∃ f fr b rest, AtAnswer s b rest ∧ isAck b = false ∧ s.feed = some f ∧ f.phase = .wait fr ∧
      t.rsp = s.rsp ++ [(f.requester, responseRecord 0x06#8 f.pos)]) := by
  cases c with
  | quiet regs =>
    obtain ⟨-, -, -, -, -, hbusy, -⟩ := regs
    exact .inl hbusy
  | reset turn eq => exact .inr (.inl ⟨turn, by rw [eq, applyReset_busy]⟩)
  | accepted r b rest len p at_ _ cfgd dec pos eq =>
    exact .inr (.inr (.inl ⟨by rw [eq, acceptFeed_busy], r, b, rest, len, p, at_, cfgd, dec, pos⟩))
  | completed f _ _ feed copy done eq =>
    exact .inr (.inr (.inr (.inl ⟨by rw [eq, completeStep_busy], f, feed, copy, done, by rw [eq]; rfl⟩)))
  | naked f fr b rest at_ _ feed wait nak eq =>
    exact .inr (.inr (.inr (.inr ⟨by rw [eq, flushNak_busy], f, fr, b, rest, at_, nak, feed, wait, by rw [eq]; rfl⟩)))
  | iterated f _ _ _ _ _ eq =>
    have hbusy := iterStep_busy eq
    exact .inl hbusy
  | rejected _ _ _ _ _ _ eq | emptyFeed _ _ _ _ _ _ _ _ _ _ eq | configured _ _ _ _ _ _ _ _ _ _ eq
  | closed _ _ _ _ _ _ _ eq | acked _ _ _ _ _ _ _ _ _ eq => exact .inl (by rw [eq]; rfl)

end Sys2Proof.Machine

namespace Sys2Proof.Proofs
open Sys2Proof.Machine

/-- Settles O43: the kinds of step say that nothing else changes `CFGD`, the equations of `CFG`, `END` and reset that
these do. -/
theorem cfgdChangesOnlySo : Obligations.CfgdChangesOnlySo := by
  refine ⟨rfl, fun s t hst => ⟨fun hs => ⟨fun ht => ?_, ?_⟩, fun hs => ⟨fun ht => ?_, ?_⟩⟩⟩
  · obtain same | ⟨-, clear⟩ | ⟨-, event⟩ | ⟨clear, -⟩ := (stepCase_of_step s t hst).cfgd_cases
    · simp [same, hs] at ht
    · simp [clear] at ht
    · exact event
    · simp [clear] at ht
  · rintro ⟨r, b, rest, rate, cap, hat, hb, hd, hf⟩
    have hnext := (step_of_command hat hb hd).trans (exec_cfg_of_accept hb hs hf)
    rw [← next_inj (hnext.symm.trans hst), respond_cfgd, configure_cfgd]
  · obtain same | ⟨turn, -⟩ | ⟨set, -⟩ | ⟨-, event⟩ := (stepCase_of_step s t hst).cfgd_cases
    · simp [same, hs] at ht
    · exact .inl turn
    · simp [set] at ht
    · exact .inr event
  · rintro (hturn | ⟨r, b, rest, hat, hb, hd⟩)
    · rw [← next_inj ((step_of_platform hturn).symm.trans hst), applyReset_cfgd]
    · have hnext := (step_of_command hat hb hd).trans (exec_endStream_of_configured hb hs)
      rw [← next_inj (hnext.symm.trans hst), respond_cfgd, clearRegisters_cfgd]

/-- Settles O44, by the kinds of step. -/
theorem busyChangesOnlySo : Obligations.BusyChangesOnlySo := by
  intro s t hst
  obtain same | ⟨turn, clear⟩ | ⟨set, event⟩ | ⟨clear, f, hf, -, -, hrsp⟩ |
    ⟨clear, f, _, _, _, -, -, hf, -, hrsp⟩ := (stepCase_of_step s t hst).busy_cases
  · exact ⟨fun hs ht => by simp [same, hs] at ht, fun hs ht => by simp [same, hs] at ht⟩
  · exact ⟨fun _ ht => by simp [clear] at ht, fun _ _ => .inl turn⟩
  · exact ⟨fun _ _ => event, fun _ ht => by simp [set] at ht⟩
  · exact ⟨fun _ ht => by simp [clear] at ht, fun _ _ => .inr ⟨f, hf, .inl hrsp⟩⟩
  · exact ⟨fun _ ht => by simp [clear] at ht, fun _ _ => .inr ⟨f, hf, .inr hrsp⟩⟩

end Sys2Proof.Proofs
end

section
/-! The life of a block from step to step (R19, R63, R23 I4). -/

namespace Sys2Proof.Machine

/-- The edges between the logical states (R19, R63), each named after the event that takes it. -/
inductive LifecycleEdge : LogicalState → LogicalState → Prop where
  | stay (a : LogicalState) : LifecycleEdge a a
  /-- Reset or `END`. -/
  | close (a : LogicalState) : LifecycleEdge a .unconfigured
  /-- A successful `CFG`. -/
  | configure : LifecycleEdge .unconfigured .accumulating
  /-- A copy fills the buffer. -/
  | fill : LifecycleEdge .accumulating .transientlyFull
  /-- A `FEED` on a refused frame. -/
  | retry : LifecycleEdge .stalled .transientlyFull
  /-- ACK. -/
  | ack : LifecycleEdge .transientlyFull .accumulating
  /-- NAK. -/
  | nak : LifecycleEdge .transientlyFull .stalled

/-- The one edge into Stalled. -/
theorem LifecycleEdge.eq_transientlyFull {a : LogicalState} (e : LifecycleEdge a .stalled) (ha : a ≠ .stalled) :
    a = .transientlyFull := by
  cases e with
  | stay => exact absurd rfl ha
  | nak => rfl

theorem LifecycleEdge.of_sameRegisters {s t : State} (h : SameRegisters s t) :
    LifecycleEdge (logicalState s) (logicalState t) :=
  logicalState_of_sameRegisters h ▸ .stay _

/-- The acceptance of a `FEED` leaves an Accumulating block so, and starts a Stalled one on its refused frame. -/
theorem lifecycleEdge_acceptFeed {s : State} (len : Word) (payload : List Byte) (hb : s.busy = false)
    (hc : s.cfgd = true) : LifecycleEdge (logicalState s) (logicalState (acceptFeed len payload s)) := by
  by_cases ho : s.off = s.cap
  · rw [logicalState_of_full_idle hc ho hb, logicalState_of_full_busy (s := acceptFeed len payload s) hc ho rfl]
    exact .retry
  · rw [logicalState_of_room hc ho, logicalState_of_room (s := acceptFeed len payload s) hc ho]
    exact .stay _

/-- ITER fills the buffer or leaves room; a full one, at the first iteration from Stalled, it leaves full (R80). -/
theorem lifecycleEdge_iterStep {s t : State} {f : Feed} (h : Inv s) (hb : s.busy = true) (hf : s.feed = some f)
    (hs : iterStep f s = .next t) : LifecycleEdge (logicalState s) (logicalState t) := by
  have hc := (h.feedOk hf).configured
  obtain ⟨-, -, hcap, hcfgd⟩ := iterStep_sameStream hs
  have hoff := iterStep_off hs
  have hle := h.off_add_copyCount_le f
  have hct : t.cfgd = true := hcfgd.trans hc
  by_cases hot : t.off = t.cap
  · rw [logicalState_of_full_busy hct hot ((iterStep_busy hs).trans hb)]
    by_cases ho : s.off = s.cap
    · rw [logicalState_of_full_busy hc ho hb]
      exact .stay _
    · rw [logicalState_of_room hc ho]
      exact .fill
  · have ho : s.off ≠ s.cap := by omega
    rw [logicalState_of_room hct hot, logicalState_of_room hc ho]
    exact .stay _

/-- A `FEED` that has taken its whole payload has left room: a full buffer in `COPY` means that nothing was taken
yet (R74, R80). -/
theorem FeedOk.off_ne_cap_of_done {s : State} {f : Feed} (k : FeedOk s f) (hp : f.phase = .copy)
    (hdone : f.pos = f.len) : s.off ≠ s.cap := by
  intro ho
  have hpos := k.copy_full hp ho
  have hlen := k.len_pos
  omega

/-- While a DELIVER is outstanding the buffer is full (I7). -/
theorem FeedOk.off_eq_cap_of_wait {s : State} {f : Feed} {fr : Frame} (k : FeedOk s f) (hp : f.phase = .wait fr) :
    s.off = s.cap := by
  obtain ⟨ho, -, -⟩ := k.wait_full fr (by rw [hp]; rfl)
  exact ho

theorem lifecycleEdge_configure {s : State} {rate : Word} {cap : Nat} (hc : s.cfgd = false)
    (hf : framesize s.config.capMax rate = .accept cap) :
    LifecycleEdge (logicalState s) (logicalState (configure rate cap s)) := by
  obtain ⟨-, -, hcap, -⟩ := framesize_accept _ _ _ hf
  rw [logicalState_of_unconfigured hc, logicalState_of_room (configure_cfgd rate cap s) (by simp; omega)]
  exact .configure

theorem lifecycleEdge_completeStep {s : State} {f : Feed} (h : Inv s) (hf : s.feed = some f) (hp : f.phase = .copy)
    (hdone : f.pos = f.len) : LifecycleEdge (logicalState s) (logicalState (completeStep f s)) := by
  have k := h.feedOk hf
  have ho := k.off_ne_cap_of_done hp hdone
  rw [logicalState_of_room k.configured ho, logicalState_of_room (s := completeStep f s) k.configured ho]
  exact .stay _

theorem lifecycleEdge_flushAck {s : State} {f : Feed} {fr : Frame} (h : Inv s) (hb : s.busy = true)
    (hf : s.feed = some f) (hp : f.phase = .wait fr) :
    LifecycleEdge (logicalState s) (logicalState (flushAck f s)) := by
  have k := h.feedOk hf
  have hcap := h.cap_pos k.configured
  have hroom : (flushAck f s).off ≠ (flushAck f s).cap := by rw [flushAck_off, flushAck_cap]; omega
  rw [logicalState_of_full_busy k.configured (k.off_eq_cap_of_wait hp) hb,
    logicalState_of_room (s := flushAck f s) k.configured hroom]
  exact .ack

theorem lifecycleEdge_flushNak {s : State} {f : Feed} {fr : Frame} (h : Inv s) (hb : s.busy = true)
    (hf : s.feed = some f) (hp : f.phase = .wait fr) :
    LifecycleEdge (logicalState s) (logicalState (flushNak f s)) := by
  have k := h.feedOk hf
  have ho := k.off_eq_cap_of_wait hp
  rw [logicalState_of_full_busy k.configured ho hb,
    logicalState_of_full_idle (s := flushNak f s) k.configured ho (flushNak_busy f s)]
  exact .nak

/-- Every step follows an edge of R19 and R63. -/
theorem StepCase.lifecycleEdge {s t : State} (c : StepCase s t) (h : Inv s) :
    LifecycleEdge (logicalState s) (logicalState t) := by
  have hturn : Inv { s with turns := s.turns.tail } := inv_withAnswers h _ _
  cases c with
  | quiet regs => exact .of_sameRegisters regs
  | reset _ eq | closed _ _ _ _ _ _ _ eq =>
    have hc : t.cfgd = false := by rw [eq]; rfl
    exact logicalState_of_unconfigured hc ▸ .close _
  | rejected _ _ _ _ _ _ eq | emptyFeed _ _ _ _ _ _ _ _ _ _ eq =>
    exact .of_sameRegisters (eq ▸ ⟨rfl, rfl, rfl, rfl, rfl, rfl, rfl⟩)
  | configured r _ rest _ _ _ _ cfgd _ acc eq =>
    exact eq ▸ lifecycleEdge_configure (s := presented s r rest) cfgd acc
  | accepted r _ rest len p _ idle cfgd _ _ eq =>
    exact eq ▸ lifecycleEdge_acceptFeed (s := presented s r rest) len p idle cfgd
  | iterated f _ busy feed _ _ eq =>
    have edge := lifecycleEdge_iterStep hturn busy feed eq
    exact edge
  | completed f _ _ feed copy done eq =>
    have edge := lifecycleEdge_completeStep hturn feed copy done
    exact eq ▸ edge
  | acked f _ _ rest _ busy feed wait _ eq =>
    have edge := lifecycleEdge_flushAck (inv_withAnswers h s.turns.tail rest) busy feed wait
    exact eq ▸ edge
  | naked f _ _ rest _ busy feed wait _ eq =>
    have edge := lifecycleEdge_flushNak (inv_withAnswers h s.turns.tail rest) busy feed wait
    exact eq ▸ edge

end Sys2Proof.Machine

namespace Sys2Proof.Proofs
open Sys2Proof.Machine

/-- Settles O48, from the edges. -/
theorem lifecycleGraph : Obligations.LifecycleGraph := by
  intro s t h hst
  have edge := (stepCase_of_step s t hst).lifecycleEdge h
  generalize logicalState s = a, logicalState t = b at edge ⊢
  cases edge with
  | stay => cases a <;> simp
  | close => simp
  | configure | fill | retry | ack | nak => simp

/-- Settles O47: the one edge into Stalled ends a `FEED`, and of the two ends of a `FEED` only the refusal finds the
buffer full. -/
theorem stalledOnlyByRefusal : Obligations.StalledOnlyByRefusal := by
  intro s t h hst hs ht
  have c := stepCase_of_step s t hst
  have edge := c.lifecycleEdge h
  rw [ht] at edge
  obtain ⟨-, hfull, hbusy⟩ := (logicalState_eq_transientlyFull_iff s).1 (edge.eq_transientlyFull hs)
  obtain ⟨hcfgd, -, hidle⟩ := (logicalState_eq_stalled_iff t).1 ht
  obtain same | ⟨turn, -⟩ | ⟨set, -⟩ | ⟨-, f, hf, copy, done, -⟩ | ⟨-, f, fr, b, rest, hat, nak, hf, wait, hrsp⟩ :=
    c.busy_cases
  · simp [same, hbusy] at hidle
  · have hreset := next_inj ((step_of_platform turn).symm.trans hst)
    simp [← hreset] at hcfgd
  · simp [set] at hidle
  · exact absurd hfull ((h.feedOk hf).off_ne_cap_of_done copy done)
  · have hb : b ≠ [0x00#8] := by rw [Ne, ← isAck_iff, nak]; exact Bool.false_ne_true
    exact ⟨f, fr, b, rest, hat, hb, hf, wait, hrsp⟩

end Sys2Proof.Proofs
end

section
/-! A sample leaves the block with the two bytes it entered with (R32, R33). -/

namespace Sys2Proof.Machine

theorem ofNat_s16le_toNat (lo hi : Byte) : BitVec.ofNat 8 (s16le lo hi).toNat = lo := by
  apply BitVec.eq_of_toNat_eq
  rw [s16le_toNat, BitVec.toNat_ofNat, Nat.add_mul_mod_self_left, Nat.mod_eq_of_lt lo.isLt]

theorem s16le_toNat_div (lo hi : Byte) : (s16le lo hi).toNat / 256 = hi.toNat := by
  rw [s16le_toNat, Nat.add_mul_div_left _ _ (by decide), Nat.div_eq_of_lt lo.isLt, Nat.zero_add]

/-- The converse of `s16le_of_le16`. -/
theorem le16_s16le (lo hi : Byte) : le16 (s16le lo hi) = [lo, hi] := by
  rw [le16, ofNat_s16le_toNat, s16le_toNat_div, BitVec.ofNat_toNat, BitVec.setWidth_eq]

end Sys2Proof.Machine

namespace Sys2Proof.Proofs
open Sys2Proof.Machine

/-- Settles O6: the low byte is the sample's value modulo 256, the high byte its quotient. -/
theorem sampleLeavesAsItCame : Obligations.SampleLeavesAsItCame := le16_s16le

end Sys2Proof.Proofs
end

section
/-! What a step does to the sequencer of a `FEED` in progress (R21, R41). -/

namespace Sys2Proof.Machine

/-- ITER moves the cursor by the samples copied; of the rest of the sequencer it writes `PHASE` alone. -/
theorem iterStep_feed {f : Feed} {s t : State} (h : iterStep f s = .next t) :
    ∃ p, t.feed = some { f with pos := f.pos + copyCount f s, phase := p } := by
  obtain ⟨xs, m, -, -, ⟨-, rfl⟩ | ⟨-, ys, -, rfl⟩⟩ := iterStep_cases f s t h
  · exact ⟨f.phase, afterCopy_feed f m s⟩
  · exact ⟨.wait ⟨s.srate, ys⟩, by rw [deliver_feed, beginWait_feed]⟩

/-- A `FEED` that is in progress before and after a step is the same `FEED`: reset, completion and NAK leave none, an
idle block has none to replace, and every other step writes at most `POS` and `PHASE`. -/
theorem StepCase.feed_eq {s t : State} {f g : Feed} (c : StepCase s t) (h : Inv s) (hf : s.feed = some f)
    (hg : t.feed = some g) : ∃ n p, g = { f with pos := f.pos + n, phase := p } := by
  have hbusy : s.busy = true := by rw [h.busy_feed, hf]; rfl
  have unchanged (heq : t.feed = s.feed) : ∃ n p, g = { f with pos := f.pos + n, phase := p } :=
    ⟨0, f.phase, Option.some.inj (hg.symm.trans (heq.trans hf))⟩
  cases c with
  | quiet regs =>
    obtain ⟨-, -, -, -, -, -, hfeed⟩ := regs
    exact unchanged hfeed
  | rejected _ _ _ _ _ _ eq => exact unchanged (by rw [eq]; rfl)
  | emptyFeed _ _ _ _ _ _ idle | configured _ _ _ _ _ _ idle | accepted _ _ _ _ _ _ idle | closed _ _ _ _ idle =>
    simp [idle] at hbusy
  | reset _ eq | completed _ _ _ _ _ _ eq | naked _ _ _ _ _ _ _ _ _ eq => simp [eq] at hg
  | iterated f' _ _ feed _ _ eq =>
    obtain rfl : f' = f := Option.some.inj (feed.symm.trans hf)
    obtain ⟨p, hfeed⟩ := iterStep_feed eq
    exact ⟨_, p, Option.some.inj (hg.symm.trans hfeed)⟩
  | acked f' _ _ _ _ _ feed _ _ eq =>
    obtain rfl : f' = f := Option.some.inj (feed.symm.trans hf)
    rw [eq, flushAck_feed] at hg
    exact ⟨0, .copy, (Option.some.inj hg).symm⟩

end Sys2Proof.Machine

namespace Sys2Proof.Proofs
open Sys2Proof.Machine

/-- Settles O46: the step leaves the same `FEED` with its cursor moved forward, and the state it leads to meets the
invariants, which bound the cursor by `LEN` (I6). -/
theorem payloadIsCaptured : Obligations.PayloadIsCaptured := by
  intro s t f g h hst hf hg
  have c := stepCase_of_step s t hst
  have hle := ((c.inv h).feedOk hg).pos_le
  obtain ⟨n, p, rfl⟩ := c.feed_eq h hf hg
  exact ⟨rfl, rfl, rfl, Nat.le_add_right f.pos n, hle⟩

end Sys2Proof.Proofs
end

section
/-! The legal command records, each with the command it stands for (R46, R49, R50). -/

namespace Sys2Proof
open Sys2Proof.Machine

/-- The legal records: one form per row of the opcode table, with the command that a record of that form says. -/
inductive RecordOf : Instr → Record → Prop where
  /-- Format W. -/
  | cfg (b1 b2 b3 b4 : Byte) : RecordOf (.cfg (u32le b1 b2 b3 b4)) [opcodeCfg, b1, b2, b3, b4]
  /-- Format V. -/
  | feed (b1 b2 b3 b4 : Byte) (payload : List Byte) (hl : payload.length = 2 * (u32le b1 b2 b3 b4).toNat) :
      RecordOf (.feed (u32le b1 b2 b3 b4) payload) (opcodeFeed :: b1 :: b2 :: b3 :: b4 :: payload)
  /-- Format Z. -/
  | endStream : RecordOf .endStream [opcodeEnd]

theorem recordOf_of_decodeCfg {rest : List Byte} {i : Instr} (h : decodeCfg rest = .ok i) :
    RecordOf i (opcodeCfg :: rest) := by
  unfold decodeCfg at h
  split at h <;> cases h
  exact .cfg _ _ _ _

theorem recordOf_of_decodeFeed {rest : List Byte} {i : Instr} (h : decodeFeed rest = .ok i) :
    RecordOf i (opcodeFeed :: rest) := by
  unfold decodeFeed at h
  split at h
  · split at h <;> cases h
    exact .feed _ _ _ _ _ ‹_›
  · cases h

theorem recordOf_of_decodeEnd {rest : List Byte} {i : Instr} (h : decodeEnd rest = .ok i) :
    RecordOf i (opcodeEnd :: rest) := by
  unfold decodeEnd at h
  split at h <;> cases h
  exact .endStream

/-- A record that decodes has one of the three forms. -/
theorem recordOf_of_decode {b : Record} {i : Instr} (h : decode b = .ok i) : RecordOf i b := by
  unfold decode at h
  split at h
  · cases h
  · split at h
    · next hop => exact hop ▸ recordOf_of_decodeCfg h
    · split at h
      · next hop => exact hop ▸ recordOf_of_decodeFeed h
      · split at h
        · next hop => exact hop ▸ recordOf_of_decodeEnd h
        · cases h

/-- A record of one of the three forms decodes to the command it says. -/
theorem RecordOf.decode_eq {i : Instr} {b : Record} (h : RecordOf i b) : decode b = .ok i := by
  cases h with
  | cfg => rfl
  | feed b1 b2 b3 b4 payload hl => exact if_pos hl
  | endStream => rfl

/-- Every well-formed command has a legal record, the one the encoder writes. -/
theorem recordOf_encode {i : Instr} (h : i.wf = true) : RecordOf i (encode i) := by
  cases i with
  | cfg rate =>
    have form := RecordOf.cfg (BitVec.ofNat 8 rate.toNat) (BitVec.ofNat 8 (rate.toNat / 256))
      (BitVec.ofNat 8 (rate.toNat / 65536)) (BitVec.ofNat 8 (rate.toNat / 16777216))
    rwa [u32le_of_le32] at form
  | feed len payload =>
    have form := RecordOf.feed (BitVec.ofNat 8 len.toNat) (BitVec.ofNat 8 (len.toNat / 256))
      (BitVec.ofNat 8 (len.toNat / 65536)) (BitVec.ofNat 8 (len.toNat / 16777216)) payload
    rw [u32le_of_le32] at form
    exact form (of_decide_eq_true h)
  | endStream => exact .endStream

/-- No two legal records say the same command: a legal record is the one the encoder writes. -/
theorem RecordOf.encode_eq {i : Instr} {b : Record} (h : RecordOf i b) : encode i = b := by
  cases h with
  | cfg b1 b2 b3 b4 => rw [encode, le32_u32le]
  | feed b1 b2 b3 b4 payload => rw [encode, le32_u32le]; rfl
  | endStream => rfl

/-- A record that has an operand is its opcode, its four operand bytes and what follows them (R46). -/
theorem exists_eq_operand_bytes {b : Record} (h : 5 ≤ b.length) :
    ∃ op b1 b2 b3 b4, b = op :: b1 :: b2 :: b3 :: b4 :: b.drop 5 := by
  match b, h with
  | op :: b1 :: b2 :: b3 :: b4 :: rest, _ => exact ⟨op, b1, b2, b3, b4, rfl⟩

/-- The form of a `CFG` record, read from its length and its opcode. -/
theorem recordOf_cfg_of_length {b : Record} (hl : b.length = 5) (hop : b[0]? = some 0x01#8) :
    RecordOf (.cfg (operandAt b)) b := by
  obtain ⟨op, b1, b2, b3, b4, hb⟩ := exists_eq_operand_bytes hl.ge
  rw [List.drop_eq_nil_of_le hl.le] at hb
  subst hb
  obtain rfl : op = opcodeCfg := Option.some.inj hop
  exact .cfg b1 b2 b3 b4

/-- The form of a `FEED` record, read from its length and its opcode. -/
theorem recordOf_feed_of_length {b : Record} (hop : b[0]? = some 0x02#8)
    (hl : b.length = 5 + 2 * (operandAt b).toNat) : RecordOf (.feed (operandAt b) (b.drop 5)) b := by
  obtain ⟨op, b1, b2, b3, b4, hb⟩ := exists_eq_operand_bytes (b := b) (by omega)
  have hpayload : (b.drop 5).length = 2 * (operandAt b).toNat := by rw [List.length_drop, hl, Nat.add_sub_cancel_left]
  generalize b.drop 5 = payload at hb hpayload ⊢
  subst hb
  obtain rfl : op = opcodeFeed := Option.some.inj hop
  exact .feed b1 b2 b3 b4 payload hpayload

/-- The form of an `END` record, read from its length and its opcode. -/
theorem recordOf_endStream_of_length {b : Record} (hl : b.length = 1) (hop : b[0]? = some 0x03#8) :
    RecordOf .endStream b := by
  obtain ⟨op, rfl⟩ := List.length_eq_one_iff.1 hl
  obtain rfl : op = opcodeEnd := Option.some.inj hop
  exact .endStream

/-- The operand of a legal record is the rate of its `CFG` or the sample count of its `FEED` (R47). -/
theorem RecordOf.operandAt_cfg {rate : Word} {b : Record} (h : RecordOf (.cfg rate) b) : rate = operandAt b := by
  cases h with
  | cfg => rfl

theorem RecordOf.operandAt_feed {len : Word} {payload : List Byte} {b : Record} (h : RecordOf (.feed len payload) b) :
    len = operandAt b := by
  cases h with
  | feed => rfl

/-- The payload of a `FEED` begins at byte 5 of its record (R46 format V). -/
theorem RecordOf.getElem?_payload {len : Word} {payload : List Byte} {b : Record} (h : RecordOf (.feed len payload) b)
    (j : Nat) : payload[j]? = b[j + 5]? := by
  cases h with
  | feed => rfl

/-- The lengths and opcodes of the legal records are those of R49. -/
theorem RecordOf.length_cases {i : Instr} {b : Record} (h : RecordOf i b) :
    (b.length = 5 ∧ b[0]? = some 0x01#8) ∨
    (5 ≤ b.length ∧ b[0]? = some 0x02#8 ∧ b.length = 5 + 2 * (operandAt b).toNat) ∨
    (b.length = 1 ∧ b[0]? = some 0x03#8) := by
  cases h with
  | cfg => exact .inl ⟨rfl, rfl⟩
  | feed b1 b2 b3 b4 payload hl =>
    have hlen : (opcodeFeed :: b1 :: b2 :: b3 :: b4 :: payload).length = 5 + 2 * (u32le b1 b2 b3 b4).toNat := by
      rw [← hl, Nat.add_comm]; rfl
    exact .inr (.inl ⟨by omega, rfl, hlen⟩)
  | endStream => exact .inr (.inr ⟨rfl, rfl⟩)

end Sys2Proof

namespace Sys2Proof.Machine

/-- R106: a busy block rejects a record undecoded. -/
theorem beginRecord_of_busy {s : State} (b : Record) (hb : s.busy = true) :
    beginRecord b s = .next (raise .errBusy s) := by
  simp [beginRecord, hb]

/-- R108: an idle block answers an illegal record `ERR_ILLEGAL`. -/
theorem beginRecord_of_illegal {s : State} {b : Record} {e : Illegal} (hb : s.busy = false) (hd : decode b = .error e) :
    beginRecord b s = .next (raise .errIllegal s) := by
  simp [beginRecord, hb, hd]

end Sys2Proof.Machine

namespace Sys2Proof.Proofs
open Sys2Proof.Machine

/-- Settles O1: the encoder writes a legal record of the command, and a legal record decodes to what it says. -/
theorem decodeOfEncode : Obligations.DecodeOfEncode :=
  fun _ h => (recordOf_encode h).decode_eq

/-- Settles O2: a record that decodes has the form of its command, the one form the encoder writes. -/
theorem encodeOfDecode : Obligations.EncodeOfDecode :=
  fun _ _ h => ⟨decode_wf h, (recordOf_of_decode h).encode_eq⟩

/-- Settles O3: the three shapes of R49 give the three legal forms, and any other record has none of them, so it is
illegal. -/
theorem decoderIsTotal : Obligations.DecoderIsTotal := by
  intro b
  refine ⟨fun ⟨hl, hop⟩ => (recordOf_cfg_of_length hl hop).decode_eq,
    fun ⟨_, hop, hl⟩ => (recordOf_feed_of_length hop hl).decode_eq,
    fun ⟨hl, hop⟩ => (recordOf_endStream_of_length hl hop).decode_eq, fun ⟨hcfg, hfeed, hend⟩ => ?_⟩
  cases hd : decode b with
  | ok i =>
    obtain h | h | h := (recordOf_of_decode hd).length_cases
    · exact absurd h hcfg
    · exact absurd h hfeed
    · exact absurd h hend
  | error e => exact ⟨⟨e, rfl⟩, fun s => ⟨fun hb => beginRecord_of_illegal hb hd, fun hb => beginRecord_of_busy b hb⟩⟩

/-- Settles O4, by evaluating the decoder on the four records. -/
theorem writtenRecordsDecode : Obligations.WrittenRecordsDecode := by
  unfold Obligations.WrittenRecordsDecode
  decide

end Sys2Proof.Proofs
end

section
/-! Where the operands stand in the bytes of a record, of a response and of a DELIVER (R47, R48, R53, R55). -/

namespace Sys2Proof.Machine

/-- Sample `i` of an input view is read from its bytes `2*i` and `2*i+1`, low byte first (R31). -/
theorem inSample_eq_some_iff (input : List Byte) (i : Nat) (x : Sample) :
    inSample input i = some x ↔ ∃ lo hi, input[2 * i]? = some lo ∧ input[2 * i + 1]? = some hi ∧ s16le lo hi = x := by
  unfold inSample memReadIn
  cases input[2 * i]? <;> cases input[2 * i + 1]? <;> simp

/-- The signed value of a sample is the two's-complement number of its two bytes (R48). -/
theorem s16le_toInt (lo hi : Byte) :
    (s16le lo hi).toInt =
      if lo.toNat + 256 * hi.toNat ≥ 32768 then ((lo.toNat + 256 * hi.toNat : Nat) : Int) - 65536
      else ((lo.toNat + 256 * hi.toNat : Nat) : Int) := by
  rw [BitVec.toInt_eq_toNat_cond, s16le_toNat]
  split <;> split <;> omega

theorem extractLsb'_s16le_lo (lo hi : Byte) : (s16le lo hi).extractLsb' 0 8 = lo := ofNat_s16le_toNat lo hi

theorem extractLsb'_s16le_hi (lo hi : Byte) : (s16le lo hi).extractLsb' 8 8 = hi := by
  rw [BitVec.extractLsb', Nat.shiftRight_eq_div_pow, s16le_toNat_div, BitVec.ofNat_toNat, BitVec.setWidth_eq]

/-- The operand of a response record is its consumed count, modulo `2^32` (R53). -/
theorem operandAt_responseRecord (code : Byte) (n : Nat) : operandAt (responseRecord code n) = BitVec.ofNat 32 n :=
  u32le_of_le32 (BitVec.ofNat 32 n)

/-- Sample `i` of a run takes bytes `2*i` and `2*i+1` of the run's bytes, low byte first (R46 format V, R55). -/
theorem getElem?_samplesBytes {xs : List Sample} {i : Nat} {x : Sample} (h : xs[i]? = some x) :
    (samplesBytes xs)[2 * i]? = some (x.extractLsb' 0 8) ∧ (samplesBytes xs)[2 * i + 1]? = some (x.extractLsb' 8 8) := by
  obtain ⟨lo, hi, hlo, hhi, rfl⟩ := (inSample_eq_some_iff _ i x).1 ((inSample_samplesBytes xs i).trans h)
  rw [extractLsb'_s16le_lo, extractLsb'_s16le_hi]
  exact ⟨hlo, hhi⟩

/-- The samples of a DELIVER record begin at its byte 4 (R55). -/
theorem getElem?_deliverRecord (rate : Word) (xs : List Sample) (j : Nat) :
    (deliverRecord rate xs)[j + 4]? = (samplesBytes xs)[j]? := rfl

end Sys2Proof.Machine

namespace Sys2Proof.Proofs
open Sys2Proof.Machine

/-- Settles O5, from the forms of the records and the values of their little-endian fields. -/
theorem operandAssembly : Obligations.OperandAssembly := by
  refine ⟨u32le_toNat, fun b rate h => (recordOf_of_decode h).operandAt_cfg, fun b len payload h => ?_, fun lo hi => ?_⟩
  · have form := recordOf_of_decode h
    have hl := decode_feed_length h
    refine ⟨form.operandAt_feed, hl, fun i hi => ?_⟩
    have hlo : payload[2 * i]? = some payload[2 * i] := List.getElem?_eq_getElem (by omega)
    have hhi : payload[2 * i + 1]? = some payload[2 * i + 1] := List.getElem?_eq_getElem (by omega)
    refine ⟨_, _, ?_, ?_, (inSample_eq_some_iff _ _ _).2 ⟨_, _, hlo, hhi, rfl⟩⟩
    · rw [Nat.add_comm, ← form.getElem?_payload, hlo]
    · rw [Nat.add_comm, ← form.getElem?_payload (2 * i + 1), hhi]
  · have value := s16le_toInt lo hi
    have hlo := lo.isLt
    have hhi := hi.isLt
    refine ⟨?_, ?_, value⟩ <;> rw [value] <;> split <;> omega

/-- Settles O7: the count is the operand of the record, and no count below `2^32` is reduced. -/
theorem responseRecordLayout : Obligations.ResponseRecordLayout := by
  intro st n hn
  refine ⟨responseRecord_length _ n, rfl, ?_⟩
  rw [operandAt_responseRecord, BitVec.toNat_ofNat, Nat.mod_eq_of_lt hn]

/-- Settles O8, from the place of a sample in the bytes of its run. -/
theorem deliverRecordLayout : Obligations.DeliverRecordLayout := by
  refine fun rate xs => ⟨deliverRecord_length rate xs, List.take_left' (le32_length rate), fun i x hx => ?_⟩
  obtain ⟨hlo, hhi⟩ := getElem?_samplesBytes hx
  constructor
  · rw [Nat.add_comm, getElem?_deliverRecord, hlo]
  · rw [Nat.add_comm, getElem?_deliverRecord rate xs (2 * i + 1), hhi]

end Sys2Proof.Proofs
end

section
/-! The samples that the pseudo-instructions of the assembler name (R57, R58). -/

namespace Sys2Proof.Machine

theorem ramp_length (a : Int) (n : Nat) : (ramp a n).length = n := by
  induction n generalizing a with
  | zero => rfl
  | succ n ih => rw [ramp, List.length_cons, ih]

/-- Sample `k` of `ramp(a, n)` is `a + k` (00_scope.md section 5). -/
theorem getElem?_ramp {a : Int} {n k : Nat} (h : k < n) : (ramp a n)[k]? = some (sampleOfInt (a + k)) := by
  induction n generalizing a k with
  | zero => omega
  | succ n ih =>
    cases k with
    | zero => simp [ramp]
    | succ k => rw [ramp, List.getElem?_cons_succ, ih (by omega), Nat.cast_succ, Int.add_assoc, Int.add_comm 1]

end Sys2Proof.Machine

namespace Sys2Proof.Proofs
open Sys2Proof.Machine

/-- Settles O9: the samples are `ramp(a, n)` and `rep(v, n)`. -/
theorem pseudoInstructionsExpand : Obligations.PseudoInstructionsExpand := by
  refine ⟨fun v => rfl, fun a n => ⟨ramp a n, rfl, ramp_length a n, fun k hk => getElem?_ramp hk⟩,
    fun v n => ⟨rep v n, rfl, List.length_replicate, fun k hk => ?_⟩, fun a v => ⟨rfl, rfl⟩⟩
  rw [rep, List.getElem?_replicate_of_lt hk]

/-- Settles O10, by evaluating the assembler on the ten lines. -/
theorem assemblerReadsItsForms : Obligations.AssemblerReadsItsForms := by
  unfold Obligations.AssemblerReadsItsForms
  decide

end Sys2Proof.Proofs
end

section
/-! The answers that nobody waits for, and the count of responses against records (R53, R56, R121, R130). -/

namespace Sys2Proof.Machine

/-- An answer record is taken in the state with itself and its turn taken off (R45, R56). -/
theorem step_of_atAnswer {s : State} {b : Record} {rest : List Record} (h : AtAnswer s b rest) :
    step s = .next (takeAnswer b { s with turns := s.turns.tail, ans := rest }) := by
  obtain ⟨ha, hans⟩ := h
  simp only [step, ha, nextTurn_snd, agentMove, sinkMove, hans]

/-- A block with a frame in flight is waiting (R21, R87). -/
theorem waiting_of_wait {s : State} {f : Feed} {fr : Frame} (hb : s.busy = true) (hf : s.feed = some f)
    (hp : f.phase = .wait fr) : waiting s = true := by
  simp [waiting, hb, hf, hp, Phase.inflight]

/-- Without an outstanding DELIVER an answer record does nothing (R56). -/
theorem takeAnswer_of_not_waiting {s : State} (b : Record) (h : waiting s = false) : takeAnswer b s = s := by
  obtain same | ⟨f, fr, hb, hf, hp, -⟩ := takeAnswer_cases b s
  · exact same
  · simp [waiting_of_wait hb hf hp] at h

/-- ITER sends no response and takes no record. -/
theorem iterStep_rsp_cmd {f : Feed} {s t : State} (h : iterStep f s = .next t) : t.rsp = s.rsp ∧ t.cmd = s.cmd := by
  obtain ⟨xs, m, -, -, ⟨-, rfl⟩ | ⟨-, ys, -, rfl⟩⟩ := iterStep_cases f s t h <;> exact ⟨rfl, rfl⟩

/-- The records of a block that have been answered, are still to come, or have a `FEED` in progress. -/
def recordCount (s : State) : Nat := s.rsp.length + s.cmd.length + s.busy.toNat

/-- A response counts for one record. -/
theorem recordCount_respond (r : Nat) (st : Status) (n : Nat) (s : State) :
    recordCount (respond r st n s) = recordCount s + 1 := by
  simp only [recordCount, respond_rsp, respond_cmd, respond_busy, List.length_append, List.length_singleton]
  omega

/-- A record that begins is no longer to come. -/
theorem recordCount_presented {s : State} {r : Nat} {b : Record} {rest : List (Nat × Record)}
    (h : AtRecord s r b rest) : recordCount (presented s r rest) + 1 = recordCount s := by
  obtain ⟨-, hc⟩ := h
  simp only [recordCount, presented, hc, List.length_cons]
  omega

/-- A `FEED` in progress counts for its record. -/
theorem recordCount_acceptFeed {s : State} (len : Word) (payload : List Byte) (hb : s.busy = false) :
    recordCount (acceptFeed len payload s) = recordCount s + 1 := by
  simp [recordCount, hb]

/-- A `FEED` that ends counts no longer. -/
theorem recordCount_endFeed {s : State} (turns : List Agent) (ans : List Record) (hb : s.busy = true) :
    recordCount { s with turns := turns, ans := ans, busy := false, feed := none } + 1 = recordCount s := by
  simp [recordCount, hb]

/-- Every kind of step but reset moves a record from one of the three counts to another, or leaves them. -/
theorem StepCase.recordCount_eq {s t : State} (c : StepCase s t) (h : (nextTurn s).1 ≠ .platform) :
    recordCount t = recordCount s := by
  cases c with
  | quiet regs _ rsp cmd =>
    obtain ⟨-, -, -, -, -, busy, -⟩ := regs
    rw [recordCount, rsp, cmd, busy, recordCount]
  | reset turn => exact absurd turn h
  | rejected r b rest e at_ _ eq => rw [eq, raise, recordCount_respond, recordCount_presented at_]
  | emptyFeed r b rest len p at_ _ _ _ _ eq => rw [eq, recordCount_respond, recordCount_presented at_]
  | configured r b rest rate cap at_ _ _ _ _ eq =>
    rw [eq, recordCount_respond]
    exact recordCount_presented at_
  | accepted r b rest len p at_ idle _ _ _ eq =>
    rw [eq, recordCount_acceptFeed (s := presented s r rest) len p idle, recordCount_presented at_]
  | closed r b rest at_ _ _ _ eq =>
    rw [eq, recordCount_respond]
    exact recordCount_presented at_
  | iterated f _ _ _ _ _ eq =>
    obtain ⟨rsp, cmd⟩ := iterStep_rsp_cmd eq
    rw [recordCount, rsp, cmd, iterStep_busy eq, recordCount]
  | completed f _ busy _ _ _ eq =>
    rw [eq, completeStep, recordCount_respond]
    exact recordCount_endFeed _ s.ans busy
  | acked f fr b rest _ _ _ _ _ eq => rw [eq]; rfl
  | naked f fr b rest _ busy _ _ _ eq =>
    rw [eq, flushNak, recordCount_respond]
    exact recordCount_endFeed _ rest busy

end Sys2Proof.Machine

namespace Sys2Proof.Proofs
open Sys2Proof.Machine

/-- Settles O36, by the kinds of step: each keeps the count of records. -/
theorem oneResponsePerRecord : Obligations.OneResponsePerRecord :=
  fun s t hst h => (stepCase_of_step s t hst).recordCount_eq h

/-- Settles O28: the sink's move takes the answer and its turn off, and a block that does not wait ignores it. -/
theorem strayAnswerIsIgnored : Obligations.StrayAnswerIsIgnored :=
  fun _ b _ hat hw => (step_of_atAnswer hat).trans (congrArg _ (takeAnswer_of_not_waiting b hw))

end Sys2Proof.Proofs
end

section
/-! The frame-size calculator and the lifecycle commands: what each rate and each command is answered, and what stays
while a stream is open (R60 to R62, R64, R65). -/

namespace Sys2Proof.Machine

/-! ### The frame-size calculator -/

theorem framesize_of_zero {rate : Word} (capMax : Nat) (hz : rate.toNat = 0) :
    framesize capMax rate = .reject .errRateZero := by
  simp [framesize, hz]

theorem framesize_of_not_dvd {rate : Word} (capMax : Nat) (hz : rate.toNat ≠ 0) (hd : rate.toNat % 100 ≠ 0) :
    framesize capMax rate = .reject .errRateIndiv := by
  simp [framesize, frameDiv, hz, hd]

theorem framesize_of_gt {capMax : Nat} {rate : Word} (hz : rate.toNat ≠ 0) (hd : rate.toNat % 100 = 0)
    (hr : rate.toNat / 100 > capMax) : framesize capMax rate = .reject .errRateRange := by
  simp [framesize, frameDiv, hz, hd, hr]

theorem framesize_of_le {capMax : Nat} {rate : Word} (hz : rate.toNat ≠ 0) (hd : rate.toNat % 100 = 0)
    (hr : rate.toNat / 100 ≤ capMax) : framesize capMax rate = .accept (rate.toNat / 100) := by
  simp [framesize, frameDiv, hz, hd, hr]

/-! ### The rejections -/

/-- A busy block rejects every command before any other check (R109). -/
theorem exec_of_busy {s : State} (i : Instr) (hb : s.busy = true) : exec i s = .next (raise .errBusy s) := by
  cases i with
  | cfg rate => simp [exec, execCfg, hb]
  | feed len payload => simp [exec, execFeed, hb]
  | endStream => simp [exec, execEndStream, hb]

/-- `CFG` in an open stream (R64). -/
theorem exec_cfg_of_configured {s : State} (rate : Word) (hb : s.busy = false) (hc : s.cfgd = true) :
    exec (.cfg rate) s = .next (raise .errState s) := by
  simp [exec, execCfg, hb, hc]

/-- `FEED` without a stream, the empty `FEED` too (R65). -/
theorem exec_feed_of_unconfigured {s : State} (len : Word) (payload : List Byte) (hb : s.busy = false)
    (hc : s.cfgd = false) : exec (.feed len payload) s = .next (raise .errState s) := by
  simp [exec, execFeed, hb, hc]

/-- `END` without a stream (R65). -/
theorem exec_endStream_of_unconfigured {s : State} (hb : s.busy = false) (hc : s.cfgd = false) :
    exec .endStream s = .next (raise .errState s) := by
  simp [exec, execEndStream, hb, hc]

/-! ### While a stream is open -/

/-- A step from an open stream to an open stream is in the same stream: of the kinds of step that write the rate or the
capacity, reset and `END` close the stream, and `CFG` succeeds only where none is open (R61, R62, R64). -/
theorem StepCase.sameStream {s t : State} (c : StepCase s t) (hs : s.cfgd = true) (ht : t.cfgd = true) :
    SameStream s t := by
  cases c with
  | quiet regs _ _ _ cfg =>
    obtain ⟨hsrate, hcap, -, -, hcfgd, -, -⟩ := regs
    exact ⟨cfg, hsrate, hcap, hcfgd⟩
  | reset _ eq | closed _ _ _ _ _ _ _ eq => simp [eq] at ht
  | configured _ _ _ _ _ _ _ unconfigured => simp [unconfigured] at hs
  | iterated f _ _ _ _ _ eq =>
    have same := iterStep_sameStream eq
    exact same
  | rejected _ _ _ _ _ _ eq | emptyFeed _ _ _ _ _ _ _ _ _ _ eq | accepted _ _ _ _ _ _ _ _ _ _ eq
  | completed _ _ _ _ _ _ eq | acked _ _ _ _ _ _ _ _ _ eq | naked _ _ _ _ _ _ _ _ _ eq =>
    subst eq
    exact ⟨rfl, rfl, rfl, rfl⟩

end Sys2Proof.Machine

namespace Sys2Proof.Proofs
open Sys2Proof.Machine

/-- Settles O14: the three tests in their order, and on the fourth branch the quotient is exact. -/
theorem frameSizeCalculator : Obligations.FrameSizeCalculator := by
  intro capMax rate
  refine ⟨framesize_of_zero capMax, fun ⟨hz, hd⟩ => framesize_of_not_dvd capMax hz hd,
    fun ⟨hz, hd, hr⟩ => framesize_of_gt hz hd hr, fun ⟨hz, hd, hr⟩ => ?_⟩
  have hexact : rate.toNat / 100 * 100 = rate.toNat := Nat.div_mul_cancel (Nat.dvd_of_mod_eq_zero hd)
  exact ⟨_, framesize_of_le hz hd hr, rfl, hexact, by omega, hr⟩

/-- Settles O15: the calculator accepts the rate, and an idle, unconfigured block is configured with its answer. -/
theorem cfgConfigures : Obligations.CfgConfigures :=
  fun _ _ hb hc hz hd hr => exec_cfg_of_accept hb hc (framesize_of_le hz hd hr)

/-- Settles O18: the registers `END` clears are those of R25, and `responseRecord` evaluates to the five bytes. -/
theorem endClosesTheStream : Obligations.EndClosesTheStream :=
  fun _ hb hc => exec_endStream_of_configured hb hc

/-- Settles O19, by the two rejections of each command. -/
theorem feedAndEndErrors : Obligations.FeedAndEndErrors := by
  rintro s i (rfl | ⟨len, payload, rfl⟩)
  · exact ⟨exec_of_busy _, exec_endStream_of_unconfigured⟩
  · exact ⟨exec_of_busy _, exec_feed_of_unconfigured len payload⟩

/-- Settles O42: every step within an open stream keeps it, and `CFG` is rejected there before its rate is looked at. -/
theorem rateAndCapacityAreFixed : Obligations.RateAndCapacityAreFixed := by
  refine ⟨fun s t hst hs ht => ?_, fun s rate hc hb => exec_cfg_of_configured rate hb hc⟩
  obtain ⟨-, hsrate, hcap, -⟩ := (stepCase_of_step s t hst).sameStream hs ht
  exact ⟨hsrate, hcap⟩

end Sys2Proof.Proofs
end

section
/-! The two moves of a block inside a `FEED`, ITER and COMPLETE, and the acceptance that starts it (R70 to R75, R81). -/

namespace Sys2Proof.Machine

/-! ### Acceptance -/

/-- R70: a `FEED` with `L >= 1` on an idle, configured block starts its loop. -/
theorem exec_feed_of_pos {s : State} {len : Word} (payload : List Byte) (hb : s.busy = false) (hc : s.cfgd = true)
    (hl : 1 ≤ len.toNat) : exec (.feed len payload) s = .next (acceptFeed len payload s) := by
  have hne : len.toNat ≠ 0 := by omega
  simp [exec, execFeed, hb, hc, hne]

/-- R75: the empty `FEED` on an idle, configured block is answered at once. -/
theorem exec_feed_of_zero {s : State} {len : Word} (payload : List Byte) (hb : s.busy = false) (hc : s.cfgd = true)
    (hl : len.toNat = 0) : exec (.feed len payload) s = .next (respond s.port .ok 0 s) := by
  simp [exec, execFeed, hb, hc, hl]

/-! ### The runs of a copy, cell by cell -/

/-- Sample `k` of the run a copy step reads is sample `pos + k` of the input view (R35). -/
theorem getElem?_inRun {input : List Byte} {pos n k : Nat} {xs : List Sample} (h : inRun input pos n = some xs)
    (hk : k < n) : xs[k]? = inSample input (pos + k) := by
  induction n generalizing pos k xs with
  | zero => omega
  | succ n ih =>
    simp only [inRun] at h
    split at h
    · next y ys hy hys =>
      cases h
      cases k with
      | zero => simp [hy]
      | succ k => rw [List.getElem?_cons_succ, ih hys (by omega), Nat.add_assoc, Nat.add_comm 1]
    · cases h

/-- Sample `k` of the run a flush reads is cell `i + k` (R86). -/
theorem getElem?_bufRun {m : Memory} {i n k : Nat} {xs : List Sample} (h : bufRun m i n = some xs) (hk : k < n) :
    xs[k]? = bufRead m (i + k) := by
  induction n generalizing i k xs with
  | zero => omega
  | succ n ih =>
    simp only [bufRun] at h
    split at h
    · next y ys hy hys =>
      cases h
      cases k with
      | zero => simp [hy]
      | succ k => rw [List.getElem?_cons_succ, ih hys (by omega), Nat.add_assoc, Nat.add_comm 1]
    · cases h

/-- What the copy of `n` samples does to the cells: from `at_` on they hold the samples of the input view from `pos`
on, and every other cell is unchanged (R35). -/
theorem bufRead_copied {depth pos n at_ : Nat} {input : List Byte} {xs : List Sample} {m m' : Memory}
    (hm : Memory.wf m = true) (hx : inRun input pos n = some xs) (hw : bufWriteRun depth m at_ xs = some m') :
    (∀ k, k < n → bufRead m' (at_ + k) = inSample input (pos + k)) ∧
      ∀ i, i < at_ ∨ at_ + n ≤ i → bufRead m' i = bufRead m i := by
  have hl := inRun_length input pos n xs hx
  have read := fun i => bufRead_bufWriteRun depth xs m m' at_ i hm hw
  refine ⟨fun k hk => ?_, fun i hi => ?_⟩
  · rw [read, if_pos (by omega), Nat.add_sub_cancel_left, getElem?_inRun hx hk]
  · rw [read, if_neg (by omega)]

/-! ### The block's own step -/

theorem step_of_block {s : State} (h : (nextTurn s).1 = .block) :
    step s = ownStep { s with turns := s.turns.tail } := by
  simp only [step, h, nextTurn_snd, agentMove]

/-- A `FEED` in progress is what `BUSY` says (R17). -/
theorem Inv.busy_of_feed {s : State} {f : Feed} (h : Inv s) (hf : s.feed = some f) : s.busy = true := by
  rw [h.busy_feed, hf]; rfl

/-- R81: ITER is the block's step while samples of the payload are left. -/
theorem ownStep_of_lt {s : State} {f : Feed} (hb : s.busy = true) (hf : s.feed = some f) (hp : f.phase = .copy)
    (hl : f.pos < f.len) : ownStep s = iterStep f s := by
  simp [ownStep, hb, hf, hp, hl]

/-- R81: COMPLETE is the block's step when none is left. -/
theorem ownStep_of_eq {s : State} {f : Feed} (hb : s.busy = true) (hf : s.feed = some f) (hp : f.phase = .copy)
    (hl : f.pos = f.len) : ownStep s = .next (completeStep f s) := by
  simp [ownStep, hb, hf, hp, hl]

theorem step_of_iter {s : State} {f : Feed} (h : Inv s) (ht : (nextTurn s).1 = .block) (hf : s.feed = some f)
    (hp : f.phase = .copy) (hl : f.pos < f.len) : step s = iterStep f { s with turns := s.turns.tail } :=
  (step_of_block ht).trans (ownStep_of_lt (s := { s with turns := s.turns.tail }) (h.busy_of_feed hf) hf hp hl)

theorem step_of_complete {s : State} {f : Feed} (h : Inv s) (ht : (nextTurn s).1 = .block) (hf : s.feed = some f)
    (hp : f.phase = .copy) (hl : f.pos = f.len) :
    step s = .next (completeStep f { s with turns := s.turns.tail }) :=
  (step_of_block ht).trans (ownStep_of_eq (s := { s with turns := s.turns.tail }) (h.busy_of_feed hf) hf hp hl)

end Sys2Proof.Machine

namespace Sys2Proof.Proofs
open Sys2Proof.Machine

/-- Settles O21: `acceptFeed` writes these registers. -/
theorem feedIsAccepted : Obligations.FeedIsAccepted :=
  fun _ _ payload hb hc hl => exec_feed_of_pos payload hb hc hl

/-- Settles O22, by the record of the empty command and the three answers of an empty `FEED`. -/
theorem emptyFeedDoesNothing : Obligations.EmptyFeedDoesNothing :=
  ⟨(recordOf_encode (i := .feed 0#32 []) rfl).decode_eq, fun _ =>
    ⟨fun hb hc => exec_feed_of_zero [] hb hc rfl, exec_of_busy _, exec_feed_of_unconfigured _ _⟩⟩

/-- Settles O23: the cells are those of the copied run, and `afterCopy` writes nothing else. -/
theorem copyWithoutFilling : Obligations.CopyWithoutFilling := by
  rintro s f n h ht hf hp hl rfl hn
  obtain ⟨xs, m, hx, -, hw, hcells, -, hs⟩ :=
    iterStep_partial { s with turns := s.turns.tail } f (inv_withAnswers h _ _) hf hn
  obtain ⟨copied, kept⟩ := bufRead_copied h.mem_wf hx hw
  refine ⟨_, (step_of_iter h ht hf hp hl).trans hs, rfl, rfl, fun k hk => ⟨?_, copied k hk⟩, kept, rfl, rfl, rfl, rfl,
    rfl, rfl, ⟨rfl, rfl, rfl, rfl⟩, rfl⟩
  rw [afterCopy_buf, bufRead_isSome_of_range m _ _ hcells]
  exact Nat.add_lt_add_left hk s.off

/-- Settles O24: the frame is the run the flush has read, and the cells are those of the copied run. -/
theorem copyThatFillsDelivers : Obligations.CopyThatFillsDelivers := by
  rintro s f n h ht hf hp hl rfl hn
  obtain ⟨xs, m, hx, -, hw, -, -, hrun, hs⟩ :=
    iterStep_filling { s with turns := s.turns.tail } f (inv_withAnswers h _ _) hf hn
  obtain ⟨copied, kept⟩ := bufRead_copied h.mem_wf hx hw
  refine ⟨_, _, (step_of_iter h ht hf hp hl).trans hs, hn, rfl, bufRun_length _ _ _ _ hrun, fun i hi => ?_, copied,
    kept, rfl, rfl, rfl, rfl, rfl, rfl, ⟨rfl, rfl, rfl, rfl⟩, rfl⟩
  simpa using getElem?_bufRun hrun hi

/-- Settles O25: a `FEED` whose payload is taken has left room in the buffer. -/
theorem completionAnswersOk : Obligations.CompletionAnswersOk := by
  intro s f h ht hf hp hl
  have k := h.feedOk hf
  have hroom := k.off_ne_cap_of_done hp hl
  refine ⟨_, step_of_complete h ht hf hp hl, rfl, rfl, logicalState_of_room k.configured hroom,
    lt_of_le_of_ne h.off_le hroom, rfl, rfl, rfl, rfl, rfl, rfl, rfl, rfl, rfl, rfl, rfl⟩

end Sys2Proof.Proofs
end

section
/-! No sample is lost (R76): what each step does to the samples held, taken and accepted. -/

namespace Sys2Proof.Machine

theorem Inv.bufSamples_length {s : State} (h : Inv s) : (bufSamples s).length = s.off := by
  simpa [bufSamples] using congrArg List.length h.cells

theorem Inv.bufSamples_eq_nil {s : State} (h : Inv s) (ho : s.off = 0) : bufSamples s = [] :=
  List.eq_nil_of_length_eq_zero (h.bufSamples_length.trans ho)

/-- A block without a stream holds no sample (I1, I5). -/
theorem Inv.bufSamples_of_unconfigured {s : State} (h : Inv s) (hc : s.cfgd = false) : bufSamples s = [] := by
  obtain ⟨-, -, hoff, -⟩ := h.unconfigured hc
  exact h.bufSamples_eq_nil hoff

/-- The frame in flight is the buffer (I7, R22). -/
theorem Inv.bufSamples_eq_inflight {s : State} {f : Feed} {fr : Frame} (h : Inv s) (hf : s.feed = some f)
    (hp : f.phase = .wait fr) : bufSamples s = fr.samples := by
  obtain ⟨ho, -, hrun⟩ := (h.feedOk hf).wait_full fr (by rw [hp]; rfl)
  exact Option.some.inj ((bufRun_of_range s.buf s.cap (ho ▸ h.cells)).symm.trans hrun)

/-- The samples held and those taken by the step are those of the frame the step has had accepted and those held after
it. -/
def SampleBalance (s t : State) : Prop := bufSamples s ++ takenBy s t = acceptedBy s t ++ bufSamples t

/-- A step that balances the samples keeps R76. -/
theorem NoLoss.of_sampleBalance {g : Ghost} {s t : State} (h : NoLoss g s) (hs : s.cfgd = true) (ht : t.cfgd = true)
    (hb : SampleBalance s t) : NoLoss (g.after s t) t := by
  unfold NoLoss SampleBalance at *
  simp only [Ghost.after, hs, ht, Bool.and_self, if_true]
  rw [h, List.append_assoc, hb, List.append_assoc]

/-- Without a stream before or after the step the ghost is empty, as the buffer then must be. -/
theorem noLoss_of_not_open {g : Ghost} {s t : State} (h : ¬(s.cfgd = true ∧ t.cfgd = true)) (hb : bufSamples t = []) :
    NoLoss (g.after s t) t := by
  rw [← Bool.and_eq_true] at h
  simp [NoLoss, Ghost.after, h, hb]

/-- The sequencer and the buffer stay: nothing is taken and nothing accepted. -/
theorem sampleBalance_of_same {s t : State} (hf : t.feed = s.feed) (hb : t.buf = s.buf) : SampleBalance s t := by
  unfold SampleBalance takenBy acceptedBy bufSamples
  rw [hf, hb]
  cases s.feed with
  | none => simp
  | some f => cases hp : f.phase <;> simp [hp, inRun]

/-- A `FEED` begins: it has taken nothing yet. -/
theorem sampleBalance_of_begun {s t : State} (hf : s.feed = none) (hb : t.buf = s.buf) : SampleBalance s t := by
  simp [SampleBalance, takenBy, acceptedBy, bufSamples, hf, hb]

/-- A `FEED` ends: what it has taken stays in the buffer. -/
theorem sampleBalance_of_ended {s t : State} (hf : t.feed = none) (hb : t.buf = s.buf) : SampleBalance s t := by
  cases hs : s.feed <;> simp [SampleBalance, takenBy, acceptedBy, bufSamples, hf, hb, hs]

/-- ITER appends to the buffer the run it reads, whether or not it fills it (R72). -/
theorem iterStep_bufSamples {s t : State} {f : Feed} (h : Inv s) (hf : s.feed = some f) (hs : iterStep f s = .next t) :
    ∃ xs, inRun f.input f.pos (copyCount f s) = some xs ∧ bufSamples t = bufSamples s ++ xs := by
  obtain ⟨xs, m, hx, -, hm, -, hsamples, -⟩ := copy_ok s f h hf
  obtain ⟨_, m', hx', hm', hcase⟩ := iterStep_cases f s t hs
  obtain rfl := Option.some.inj (hx.symm.trans hx')
  obtain rfl : m = m' := Option.some.inj (hm.symm.trans hm')
  obtain ⟨-, rfl⟩ | ⟨-, ys, -, rfl⟩ := hcase <;> exact ⟨xs, hx, hsamples⟩

/-- ITER takes the run it appends to the buffer. -/
theorem sampleBalance_iterStep {s t : State} {f : Feed} (h : Inv s) (hf : s.feed = some f) (hp : f.phase = .copy)
    (hs : iterStep f s = .next t) : SampleBalance s t := by
  obtain ⟨xs, hx, hbuf⟩ := iterStep_bufSamples h hf hs
  obtain ⟨p, hfeed⟩ := iterStep_feed hs
  simp [SampleBalance, takenBy, acceptedBy, hf, hfeed, hp, hx, hbuf]

/-- ACK accepts the frame in flight, which is the whole buffer (R88). -/
theorem sampleBalance_flushAck {s : State} {f : Feed} {fr : Frame} (h : Inv s) (hf : s.feed = some f)
    (hp : f.phase = .wait fr) : SampleBalance s (flushAck f s) := by
  rw [SampleBalance, h.bufSamples_eq_inflight hf hp]
  simp [takenBy, acceptedBy, bufSamples, hf, hp, inRun]

/-- Every step inside an open stream balances the samples. -/
theorem StepCase.sampleBalance {s t : State} (c : StepCase s t) (h : Inv s) (hs : s.cfgd = true) (ht : t.cfgd = true) :
    SampleBalance s t := by
  cases c with
  | quiet regs =>
    obtain ⟨-, -, -, hbuf, -, -, hfeed⟩ := regs
    exact sampleBalance_of_same hfeed hbuf
  | rejected _ _ _ _ _ _ eq | emptyFeed _ _ _ _ _ _ _ _ _ _ eq =>
    exact sampleBalance_of_same (by rw [eq]; rfl) (by rw [eq]; rfl)
  | reset _ eq | closed _ _ _ _ _ _ _ eq => simp [eq] at ht
  | configured _ _ _ _ _ _ _ unconfigured => simp [unconfigured] at hs
  | accepted _ _ _ _ _ _ idle _ _ _ eq => exact sampleBalance_of_begun (h.feed_eq_none idle) (by rw [eq]; rfl)
  | completed _ _ _ _ _ _ eq | naked _ _ _ _ _ _ _ _ _ eq =>
    exact sampleBalance_of_ended (by rw [eq]; rfl) (by rw [eq]; rfl)
  | iterated f _ _ feed copy _ eq =>
    have balance := sampleBalance_iterStep (inv_withAnswers h s.turns.tail s.ans) feed copy eq
    exact balance
  | acked f fr _ rest _ _ feed wait _ eq =>
    have balance := sampleBalance_flushAck (inv_withAnswers h s.turns.tail rest) feed wait
    exact eq ▸ balance

/-- A stream opens with an empty buffer: only a successful `CFG` opens one (R61). -/
theorem bufSamples_of_opened {s t : State} (hst : step s = .next t) (hs : s.cfgd = false) (ht : t.cfgd = true) :
    bufSamples t = [] := by
  obtain ⟨-, edges⟩ := Proofs.cfgdChangesOnlySo
  obtain ⟨opens, -⟩ := edges s t hst
  obtain ⟨r, b, rest, rate, cap, hat, hb, hd, hf⟩ := (opens hs).1 ht
  have hnext := (step_of_command hat hb hd).trans (exec_cfg_of_accept hb hs hf)
  rw [← next_inj (hnext.symm.trans hst)]
  rfl

end Sys2Proof.Machine

namespace Sys2Proof.Proofs
open Sys2Proof.Machine

/-- Settles O40: inside an open stream every step balances the samples, and a step that opens or closes one leaves the
buffer as empty as the ghost. -/
theorem noLossIsKept : Obligations.NoLossIsKept := by
  refine ⟨rfl, fun s t g h hg hst => ?_⟩
  have c := stepCase_of_step s t hst
  cases ht : t.cfgd with
  | false => exact noLoss_of_not_open (by simp [ht]) ((c.inv h).bufSamples_of_unconfigured ht)
  | true =>
    cases hs : s.cfgd with
    | false => exact noLoss_of_not_open (by simp [hs]) (bufSamples_of_opened hst hs ht)
    | true => exact hg.of_sampleBalance hs ht (c.sampleBalance h hs ht)

end Sys2Proof.Proofs
end

section
/-! A stream of samples and its frames (R77). -/

namespace Sys2Proof.Machine

/-- Samples appended to a stream are in none of its whole frames. -/
theorem frameAt_append {cap j : Nat} {xs : List Sample} (ys : List Sample) (h : (j + 1) * cap ≤ xs.length) :
    frameAt cap (xs ++ ys) j = frameAt cap xs j := by
  rw [Nat.succ_mul] at h
  have hdrop : cap ≤ (xs.drop (j * cap)).length := by rw [List.length_drop]; omega
  rw [frameAt, List.drop_append_of_le_length (by omega), List.take_append_of_le_length hdrop, frameAt]

theorem frameAt_zero (cap : Nat) (xs : List Sample) : frameAt cap xs 0 = xs.take cap := by simp [frameAt]

theorem frameAt_drop (cap i j : Nat) (xs : List Sample) :
    frameAt cap (xs.drop (i * cap)) j = frameAt cap xs (i + j) := by
  rw [frameAt, List.drop_drop, ← Nat.add_mul, frameAt]

theorem frameRecords_append {cap k : Nat} {xs : List Sample} (rate : Word) (ys : List Sample)
    (h : k * cap ≤ xs.length) : frameRecords rate cap (xs ++ ys) k = frameRecords rate cap xs k := by
  refine List.map_congr_left fun j hj => ?_
  have hjk : (j + 1) * cap ≤ k * cap := Nat.mul_le_mul_right cap (List.mem_range.1 hj)
  rw [frameAt_append ys (hjk.trans h)]

/-- The first `i + j` frames of a stream are its first `i` and the first `j` of what comes after them. -/
theorem frameRecords_add (rate : Word) (cap i j : Nat) (xs : List Sample) :
    frameRecords rate cap xs (i + j) = frameRecords rate cap xs i ++ frameRecords rate cap (xs.drop (i * cap)) j := by
  simp only [frameRecords, List.range_add, List.map_append, List.map_map, frameAt_drop]
  rfl

theorem frameRecords_one (rate : Word) (cap : Nat) (xs : List Sample) :
    frameRecords rate cap xs 1 = [deliverRecord rate (xs.take cap)] := by
  simp [frameRecords, frameAt_zero]

theorem frameRecords_succ (rate : Word) (cap k : Nat) (xs : List Sample) :
    frameRecords rate cap xs (k + 1) = frameRecords rate cap xs k ++ [deliverRecord rate (frameAt cap xs k)] := by
  rw [frameRecords_add, frameRecords_one, frameAt]

/-! ### The samples that a block has still to deliver -/

/-- Two runs of the input view, one after the other. -/
theorem inRun_add {input : List Byte} {pos n k : Nat} {xs ys : List Sample} (hx : inRun input pos n = some xs)
    (hy : inRun input (pos + n) k = some ys) : inRun input pos (n + k) = some (xs ++ ys) := by
  induction n generalizing pos xs with
  | zero => cases hx; simpa using hy
  | succ n ih =>
    simp only [inRun] at hx
    split at hx
    · next z zs hz hzs =>
      cases hx
      rw [Nat.succ_add, inRun, hz, ih hzs (by rwa [Nat.add_assoc, Nat.add_comm 1])]
      rfl
    · cases hx

/-- The samples of the payload that the `FEED` has not taken yet. -/
def Feed.remaining (f : Feed) : List Sample := (inRun f.input f.pos (f.len - f.pos)).getD []

theorem FeedOk.remaining_length {s : State} {f : Feed} (k : FeedOk s f) : f.remaining.length = f.len - f.pos := by
  have hlen := k.input_len
  have hpos := k.pos_le
  obtain ⟨xs, hx, hl⟩ := inRun_isSome f.input f.pos (f.len - f.pos) (by omega)
  rw [Feed.remaining, hx]
  exact hl

/-- A run read at the cursor is the beginning of what remains. -/
theorem FeedOk.remaining_eq_append {s : State} {f : Feed} {n : Nat} {xs : List Sample} (k : FeedOk s f)
    (hx : inRun f.input f.pos n = some xs) (hn : f.pos + n ≤ f.len) :
    f.remaining = xs ++ { f with pos := f.pos + n }.remaining := by
  have hlen := k.input_len
  obtain ⟨ys, hy, -⟩ := inRun_isSome f.input (f.pos + n) (f.len - (f.pos + n)) (by omega)
  have hsplit : f.len - f.pos = n + (f.len - (f.pos + n)) := by omega
  rw [Feed.remaining, Feed.remaining, hsplit, inRun_add hx hy, hy]
  rfl

theorem Feed.remaining_of_done {f : Feed} (h : f.pos = f.len) : f.remaining = [] := by
  simp [Feed.remaining, h, inRun]

/-- The samples in the block, in order: those of the buffer, then what remains of the payload in progress. -/
def pendingSamples (s : State) : List Sample := bufSamples s ++ (s.feed.map Feed.remaining).getD []

theorem pendingSamples_of_feed {s : State} {f : Feed} (hf : s.feed = some f) :
    pendingSamples s = bufSamples s ++ f.remaining := by
  simp [pendingSamples, hf]

theorem pendingSamples_of_no_feed {s : State} (hf : s.feed = none) : pendingSamples s = bufSamples s := by
  simp [pendingSamples, hf]

theorem Inv.pendingSamples_length {s : State} {f : Feed} (h : Inv s) (hf : s.feed = some f) :
    (pendingSamples s).length = s.off + (f.len - f.pos) := by
  rw [pendingSamples_of_feed hf, List.length_append, h.bufSamples_length, (h.feedOk hf).remaining_length]

/-- The buffer is determined by its samples (I5). -/
theorem Inv.buf_eq_of_bufSamples {s t : State} (hs : Inv s) (ht : Inv t) (h : bufSamples t = bufSamples s) :
    t.off = s.off ∧ t.buf = s.buf := by
  have hoff : t.off = s.off := by rw [← ht.bufSamples_length, h, hs.bufSamples_length]
  have hfst : t.buf.map Prod.fst = s.buf.map Prod.fst := by rw [ht.cells, hs.cells, hoff]
  refine ⟨hoff, ?_⟩
  rw [← List.zip_unzip t.buf, ← List.zip_unzip s.buf, List.unzip_eq_map, List.unzip_eq_map, hfst]
  exact congrArg _ h

/-! ### What a run does to the stream -/

/-- From `s` to `t` the samples `xs` have come in and `j` frames have been delivered and accepted: the first `j` frames
of the samples pending in `s` followed by `xs`; the rest of them is pending in `t`. -/
structure Passes (s : State) (xs : List Sample) (j : Nat) (t : State) : Prop where
  same : SameStream s t
  enough : j * s.cap ≤ (pendingSamples s ++ xs).length
  pending : pendingSamples t = (pendingSamples s ++ xs).drop (j * s.cap)
  snk : t.snk = s.snk ++ frameRecords s.srate s.cap (pendingSamples s ++ xs) j
  ans : s.ans = List.replicate j [0x00#8] ++ t.ans

/-- No frame is accepted and no DELIVER sent. -/
theorem Passes.of_pending {s t : State} {xs : List Sample} (same : SameStream s t)
    (pending : pendingSamples t = pendingSamples s ++ xs) (snk : t.snk = s.snk) (ans : t.ans = s.ans) :
    Passes s xs 0 t where
  same := same
  enough := by simp
  pending := by simp [pending]
  snk := by simp [snk, frameRecords]
  ans := by simp [ans]

theorem Passes.refl (s : State) : Passes s [] 0 s :=
  .of_pending ⟨rfl, rfl, rfl, rfl⟩ (List.append_nil _).symm rfl rfl

theorem Passes.cap_eq {s t : State} {xs : List Sample} {j : Nat} (p : Passes s xs j t) : t.cap = s.cap := by
  obtain ⟨-, -, hcap, -⟩ := p.same
  exact hcap

theorem Passes.srate_eq {s t : State} {xs : List Sample} {j : Nat} (p : Passes s xs j t) : t.srate = s.srate := by
  obtain ⟨-, hsrate, -, -⟩ := p.same
  exact hsrate

theorem SameStream.trans {s t u : State} (h : SameStream s t) (h' : SameStream t u) : SameStream s u := by
  obtain ⟨hconfig, hsrate, hcap, hcfgd⟩ := h
  obtain ⟨hconfig', hsrate', hcap', hcfgd'⟩ := h'
  exact ⟨hconfig'.trans hconfig, hsrate'.trans hsrate, hcap'.trans hcap, hcfgd'.trans hcfgd⟩

theorem Passes.trans {s t u : State} {xs ys : List Sample} {i j : Nat} (p : Passes s xs i t) (q : Passes t ys j u) :
    Passes s (xs ++ ys) (i + j) u := by
  have hpending : pendingSamples t ++ ys = (pendingSamples s ++ (xs ++ ys)).drop (i * s.cap) := by
    rw [p.pending, ← List.append_assoc, List.drop_append_of_le_length p.enough]
  have henough := p.enough
  have henough' := q.enough
  rw [hpending, List.length_drop, p.cap_eq] at henough'
  simp only [List.length_append] at henough henough'
  constructor
  · exact p.same.trans q.same
  · rw [Nat.add_mul, List.length_append, List.length_append]
    omega
  · rw [q.pending, hpending, p.cap_eq, List.drop_drop, Nat.add_mul]
  · rw [q.snk, p.snk, hpending, p.cap_eq, p.srate_eq, frameRecords_add, ← List.append_assoc (pendingSamples s),
      frameRecords_append _ ys p.enough, List.append_assoc]
  · rw [p.ans, q.ans, ← List.append_assoc, List.replicate_add]

theorem Passes.pending_length {s t : State} {xs : List Sample} {j : Nat} (p : Passes s xs j t) :
    (pendingSamples t).length = (pendingSamples s).length + xs.length - j * s.cap := by
  rw [p.pending, List.length_drop, List.length_append]

/-- The answers that are left when the accepted frames have had theirs. -/
theorem Passes.ans_eq {s t : State} {xs : List Sample} {j : Nat} {more : List Record} (p : Passes s xs j t)
    (h : s.ans = List.replicate j [0x00#8] ++ more) : t.ans = more :=
  List.append_cancel_left (p.ans.symm.trans h)

end Sys2Proof.Machine
end

section
/-! The rounds of a `FEED` that runs without interruption (R71, R77): the schedule is empty, and each agent keeps its
duty. -/

namespace Sys2Proof.Machine

/-! ### Runs -/

theorem runSteps_add {m : Nat} {s t : State} (n : Nat) (h : runSteps m s = .next t) :
    runSteps (m + n) s = runSteps n t := by
  induction m generalizing s with
  | zero => rw [Nat.zero_add, next_inj h]
  | succ m ih =>
    rw [Nat.succ_add]
    simp only [runSteps] at h ⊢
    cases hs : step s with
    | next u => rw [hs] at h; exact ih h
    | fault | refused => rw [hs] at h; cases h

theorem runSteps_one {s t : State} (h : step s = .next t) : runSteps 1 s = .next t := by
  simp [runSteps, h]

theorem runSteps_two {s t u : State} (h : step s = .next t) (h' : step t = .next u) : runSteps 2 s = .next u :=
  (runSteps_add 1 (runSteps_one h)).trans (runSteps_one h')

/-- With the schedule empty the agent whose duty it is moves (R123, R130). -/
theorem step_of_no_turns {s : State} (h : s.turns = []) : step s = agentMove (defaultAgent s) s := by
  simp [step, nextTurn, h]

theorem Inv.step {s t : State} (h : Inv s) (hst : step s = .next t) : Inv t := (stepCase_of_step s t hst).inv h

/-! ### The states between the rounds -/

/-- An idle block with a stream open and the schedule empty. -/
structure Ready (s : State) : Prop where
  inv : Inv s
  idle : s.busy = false
  opened : s.cfgd = true
  turns : s.turns = []

/-- The `FEED` `f` is in progress, in `COPY`, and the schedule is empty. -/
structure Copying (s : State) (f : Feed) : Prop where
  inv : Inv s
  turns : s.turns = []
  feed : s.feed = some f
  copy : f.phase = .copy

/-- No record has been taken and no response sent. -/
def SameRecords (s t : State) : Prop := t.cmd = s.cmd ∧ t.rsp = s.rsp

theorem Ready.feed_eq_none {s : State} (h : Ready s) : s.feed = none := h.inv.feed_eq_none h.idle

theorem Ready.pendingSamples_eq {s : State} (h : Ready s) : pendingSamples s = bufSamples s :=
  pendingSamples_of_no_feed h.feed_eq_none

theorem Ready.pendingSamples_length {s : State} (h : Ready s) : (pendingSamples s).length = s.off := by
  rw [h.pendingSamples_eq, h.inv.bufSamples_length]

theorem Copying.feedOk {s : State} {f : Feed} (c : Copying s f) : FeedOk s f := c.inv.feedOk c.feed

theorem Copying.pendingSamples_length {s : State} {f : Feed} (c : Copying s f) :
    (pendingSamples s).length = s.off + (f.len - f.pos) := c.inv.pendingSamples_length c.feed

theorem Copying.step_eq {s : State} {f : Feed} (c : Copying s f) : step s = ownStep s := by
  have hb := c.inv.busy_of_feed c.feed
  have hd : defaultAgent s = .block := by simp [defaultAgent, waiting, hb, c.feed, c.copy, Phase.inflight]
  rw [step_of_no_turns c.turns, hd, agentMove]

/-! ### A record is presented -/

theorem Ready.step_of_command {s : State} {r : Nat} {i : Instr} {rest : List (Nat × Record)} (h : Ready s)
    (hcmd : s.cmd = (r, encode i) :: rest) (hi : i.wf = true) : step s = exec i { s with cmd := rest, port := r } := by
  have hd : defaultAgent s = .producer := by simp [defaultAgent, h.idle]
  rw [step_of_no_turns h.turns, hd, agentMove, producerMove, hcmd]
  exact beginRecord_of_decode (s := { s with cmd := rest, port := r }) h.idle (recordOf_encode hi).decode_eq

/-- The samples of a `FEED` that can be presented are counted by its operand (R4). -/
theorem feedCommand_len {xs : List Sample} (h : xs.length < 4294967296) :
    (BitVec.ofNat 32 xs.length).toNat = xs.length := by
  rw [BitVec.toNat_ofNat, Nat.mod_eq_of_lt h]

theorem feedCommand_wf {xs : List Sample} (h : xs.length < 4294967296) : (feedCommand xs).wf = true := by
  simp only [feedCommand, Instr.wf, feedCommand_len h, samplesBytes_length, decide_true]

/-- The sequencer of a `FEED` of the samples `xs` of which `p` have been taken, in `COPY` (R21). -/
def feedAt (r : Nat) (xs : List Sample) (p : Nat) : Feed :=
  { requester := r, len := xs.length, pos := p, input := samplesBytes xs, phase := .copy }

theorem remaining_feedAt_zero (r : Nat) (xs : List Sample) : (feedAt r xs 0).remaining = xs := by
  simp [Feed.remaining, feedAt, inRun_samplesBytes xs 0 xs.length (by simp)]

/-- Acceptance: the payload joins the stream (R70). -/
theorem Ready.accept {s : State} {r : Nat} {xs : List Sample} {rest : List (Nat × Record)} (h : Ready s)
    (hcmd : s.cmd = (r, encode (feedCommand xs)) :: rest) (hpos : 1 ≤ xs.length) (hlen : xs.length < 4294967296) :
    ∃ t, runSteps 1 s = .next t ∧ Passes s xs 0 t ∧ Copying t (feedAt r xs 0) ∧ t.cmd = rest ∧ t.rsp = s.rsp := by
  have hl := feedCommand_len hlen
  have hs := (h.step_of_command hcmd (feedCommand_wf hlen)).trans
    (exec_feed_of_pos (s := { s with cmd := rest, port := r }) (samplesBytes xs) h.idle h.opened (hpos.trans_eq hl.symm))
  have hfeed : (acceptFeed (BitVec.ofNat 32 xs.length) (samplesBytes xs) { s with cmd := rest, port := r }).feed =
      some (feedAt r xs 0) := by rw [acceptFeed_feed, hl]; rfl
  refine ⟨_, runSteps_one hs, .of_pending ⟨rfl, rfl, rfl, rfl⟩ ?_ rfl rfl,
    ⟨h.inv.step hs, h.turns, hfeed, rfl⟩, rfl, rfl⟩
  rw [pendingSamples_of_feed hfeed, remaining_feedAt_zero, h.pendingSamples_eq]
  rfl

/-- The empty `FEED` leaves the stream alone (R75). -/
theorem Ready.emptyFeed {s : State} {r : Nat} {rest : List (Nat × Record)} (h : Ready s)
    (hcmd : s.cmd = (r, encode (feedCommand [])) :: rest) :
    ∃ t, runSteps 1 s = .next t ∧ Passes s [] 0 t ∧ Ready t ∧ t.cmd = rest := by
  have hs := (h.step_of_command hcmd rfl).trans
    (exec_feed_of_zero (s := { s with cmd := rest, port := r }) [] h.idle h.opened rfl)
  exact ⟨_, runSteps_one hs, .of_pending ⟨rfl, rfl, rfl, rfl⟩ (List.append_nil _).symm rfl rfl,
    ⟨h.inv.step hs, h.idle, h.opened, h.turns⟩, rfl⟩

/-! ### A frame is filled -/

/-- The state after an ITER that has filled the buffer, `m` being its cells (R86). -/
def afterFill (f : Feed) (m : Memory) (s : State) : State :=
  deliver ⟨s.srate, m.map Prod.snd⟩
    (beginWait { f with pos := f.pos + copyCount f s } ⟨s.srate, m.map Prod.snd⟩ (afterCopy f m s))

/-- When the stream holds a frame the next ITER sends it (R72, R86). -/
theorem Copying.fill {s : State} {f : Feed} (c : Copying s f) (hl : s.cap ≤ (pendingSamples s).length) :
    ∃ m, step s = .next (afterFill f m s) ∧ copyCount f s = s.cap - s.off ∧
      m.map Prod.snd = (pendingSamples s).take s.cap ∧
      { f with pos := f.pos + copyCount f s }.remaining = (pendingSamples s).drop s.cap := by
  have k := c.feedOk
  have hoff := c.inv.off_le
  have hpos := k.pos_add_copyCount_le
  have hple := k.pos_le
  have hne := k.off_ne_cap_of_done c.copy
  rw [c.pendingSamples_length] at hl
  have hlt : f.pos < f.len := by omega
  have hn : copyCount f s = s.cap - s.off := by simp only [copyCount, room]; omega
  obtain ⟨xs, m, hx, hxl, -, -, hm, -, hs⟩ := iterStep_filling s f c.inv c.feed (by omega)
  have hframe : (bufSamples s ++ xs).length = s.cap := by rw [List.length_append, c.inv.bufSamples_length]; omega
  have hpending : pendingSamples s = (bufSamples s ++ xs) ++ { f with pos := f.pos + copyCount f s }.remaining := by
    rw [pendingSamples_of_feed c.feed, k.remaining_eq_append hx hpos, List.append_assoc]
  refine ⟨m, ?_, hn, ?_, ?_⟩
  · rw [c.step_eq, ownStep_of_lt (c.inv.busy_of_feed c.feed) c.feed c.copy hlt, hs, afterFill, hm]
  · rw [hm, hpending, List.take_left' hframe]
  · rw [hpending, List.drop_left' hframe]

/-- The sink answers the frame just sent (R56, R81). -/
theorem Copying.step_answer {s : State} {f : Feed} {m : Memory} {b : Record} {more : List Record} (c : Copying s f)
    (hans : s.ans = b :: more) :
    step (afterFill f m s) = .next (takeAnswer b { afterFill f m s with ans := more }) := by
  have hb := c.inv.busy_of_feed c.feed
  have hd : defaultAgent (afterFill f m s) = .sink := by
    simp [defaultAgent, waiting, afterFill, hb, Phase.inflight]
  have ha : (afterFill f m s).ans = b :: more := hans
  rw [step_of_no_turns (s := afterFill f m s) c.turns, hd, agentMove, sinkMove, ha]

/-- One round that ends with ACK: the first frame of the stream is delivered and accepted (R88). -/
theorem Copying.ack {s : State} {f : Feed} {more : List Record} (c : Copying s f)
    (hl : s.cap ≤ (pendingSamples s).length) (hans : s.ans = [0x00#8] :: more) :
    ∃ t p, runSteps 2 s = .next t ∧ Passes s [] 1 t ∧ SameRecords s t ∧ Copying t { f with pos := p } := by
  obtain ⟨m, hfill, -, hm, hrem⟩ := c.fill hl
  have hb := c.inv.busy_of_feed c.feed
  have hack : takeAnswer [0x00#8] { afterFill f m s with ans := more } =
      flushAck { f with pos := f.pos + copyCount f s } { afterFill f m s with ans := more } := by
    simp [takeAnswer, afterFill, hb, isAck, ackRecord, flushAck]
  have hs := hack ▸ c.step_answer (m := m) hans
  have hi := (c.inv.step hfill).step hs
  have hfeed : (flushAck { f with pos := f.pos + copyCount f s } { afterFill f m s with ans := more }).feed =
      some { f with pos := f.pos + copyCount f s } := by rw [flushAck_feed, ← c.copy]
  refine ⟨_, _, runSteps_two hfill hs, ?_, ⟨rfl, rfl⟩, ⟨hi, c.turns, hfeed, c.copy⟩⟩
  constructor
  · exact ⟨rfl, rfl, rfl, rfl⟩
  · simpa using hl
  · rw [pendingSamples_of_feed hfeed, hrem, List.append_nil, Nat.one_mul]; rfl
  · rw [List.append_nil, frameRecords_one, ← hm]; rfl
  · exact hans

/-- From `s` to `t` the DELIVERs `sent` have gone out, the last of them, of `frame`, has been refused, and the `FEED`
has ended with the response `answer`; the answers `more` are left (R89). -/
structure Stalls (s : State) (sent : List Record) (frame : List Sample) (answer : Nat × Record) (more : List Record)
    (t : State) : Prop where
  inv : Inv t
  stalled : logicalState t = .stalled
  same : SameStream s t
  snk : t.snk = s.snk ++ sent
  held : bufSamples t = frame
  rsp : t.rsp = s.rsp ++ [answer]
  ans : t.ans = more

/-- One round that ends with NAK: the first frame of the stream is delivered and stays, and the `FEED` ends. -/
theorem Copying.nak {s : State} {f : Feed} {b : Record} {more : List Record} (c : Copying s f)
    (hl : s.cap ≤ (pendingSamples s).length) (hans : s.ans = b :: more) (hb : b ≠ [0x00#8]) :
    ∃ t, runSteps 2 s = .next t ∧ t.cmd = s.cmd ∧
      Stalls s [deliverRecord s.srate ((pendingSamples s).take s.cap)] ((pendingSamples s).take s.cap)
        (f.requester, responseRecord 0x06#8 (f.pos + (s.cap - s.off))) more t := by
  obtain ⟨m, hfill, hn, hm, -⟩ := c.fill hl
  have hbusy := c.inv.busy_of_feed c.feed
  have hle := c.inv.off_le
  have hno : isAck b = false := by rw [← Bool.not_eq_true, isAck_iff]; exact hb
  have hnak : takeAnswer b { afterFill f m s with ans := more } =
      flushNak { f with pos := f.pos + copyCount f s } { afterFill f m s with ans := more } := by
    simp [takeAnswer, afterFill, hbusy, hno, flushNak]
  have hs := hnak ▸ c.step_answer (m := m) hans
  have hfull : s.off + copyCount f s = s.cap := by omega
  refine ⟨_, runSteps_two hfill hs, rfl, ?_⟩
  rw [← hm, ← hn]
  exact
    { inv := (c.inv.step hfill).step hs
      stalled := logicalState_of_full_idle c.feedOk.configured hfull rfl
      same := ⟨rfl, rfl, rfl, rfl⟩
      snk := rfl
      held := rfl
      rsp := rfl
      ans := rfl }

/-- As many rounds as the stream holds frames and the sink accepts. -/
theorem Copying.acks {s : State} {f : Feed} {j : Nat} {more : List Record} (c : Copying s f)
    (hl : j * s.cap ≤ (pendingSamples s).length) (hans : s.ans = List.replicate j [0x00#8] ++ more) :
    ∃ t p, runSteps (2 * j) s = .next t ∧ Passes s [] j t ∧ SameRecords s t ∧ Copying t { f with pos := p } := by
  induction j generalizing s f with
  | zero => exact ⟨s, f.pos, rfl, .refl s, ⟨rfl, rfl⟩, c⟩
  | succ j ih =>
    rw [Nat.succ_mul] at hl
    obtain ⟨t, p, hrun, hp, ⟨hcmd, hrsp⟩, ct⟩ := c.ack (by omega) hans
    have hlt : j * t.cap ≤ (pendingSamples t).length := by
      rw [hp.pending_length, hp.cap_eq, List.length_nil]
      omega
    obtain ⟨u, q, hrun', hp', ⟨hcmd', hrsp'⟩, cu⟩ := ih ct hlt (hp.ans_eq hans)
    refine ⟨u, q, ?_, Nat.add_comm 1 j ▸ hp.trans hp', ⟨hcmd'.trans hcmd, hrsp'.trans hrsp⟩, cu⟩
    rw [Nat.mul_succ, Nat.add_comm, runSteps_add _ hrun, hrun']

/-! ### The end of the payload -/

/-- COMPLETE (R74). -/
theorem Copying.complete {s : State} {f : Feed} (c : Copying s f) (hl : f.pos = f.len) :
    ∃ t, step s = .next t ∧ Passes s [] 0 t ∧ Ready t ∧ t.cmd = s.cmd ∧
      t.rsp = s.rsp ++ [(f.requester, responseRecord 0x00#8 f.len)] := by
  have hs := c.step_eq.trans (ownStep_of_eq (c.inv.busy_of_feed c.feed) c.feed c.copy hl)
  refine ⟨_, hs, .of_pending ⟨rfl, rfl, rfl, rfl⟩ ?_ rfl rfl,
    ⟨c.inv.step hs, rfl, c.feedOk.configured, c.turns⟩, rfl, rfl⟩
  rw [pendingSamples_of_feed c.feed, Feed.remaining_of_done hl, pendingSamples_of_no_feed (completeStep_feed f s),
    List.append_nil, List.append_nil]
  rfl

/-- An ITER that takes the last of the payload and leaves room (R72). -/
theorem Copying.takeLast {s : State} {f : Feed} (c : Copying s f) (hlt : f.pos < f.len)
    (hl : (pendingSamples s).length < s.cap) :
    ∃ t, step s = .next t ∧ Passes s [] 0 t ∧ SameRecords s t ∧ Copying t { f with pos := f.len } := by
  have k := c.feedOk
  rw [c.pendingSamples_length] at hl
  have hn : f.pos + copyCount f s = f.len := by simp only [copyCount, room]; omega
  obtain ⟨xs, m, hx, -, -, -, hm, hs⟩ := iterStep_partial s f c.inv c.feed (by omega)
  have hs := (c.step_eq.trans (ownStep_of_lt (c.inv.busy_of_feed c.feed) c.feed c.copy hlt)).trans hs
  have hfeed : (afterCopy f m s).feed = some { f with pos := f.len } := by rw [afterCopy_feed, hn]
  have hrem := k.remaining_eq_append hx hn.le
  rw [Feed.remaining_of_done (f := { f with pos := f.pos + copyCount f s }) hn, List.append_nil] at hrem
  refine ⟨_, hs, .of_pending ⟨rfl, rfl, rfl, rfl⟩ ?_ rfl rfl, ⟨rfl, rfl⟩,
    ⟨c.inv.step hs, c.turns, hfeed, c.copy⟩⟩
  rw [pendingSamples_of_feed hfeed, Feed.remaining_of_done rfl, pendingSamples_of_feed c.feed, hrem, List.append_nil,
    List.append_nil]
  exact hm

/-- When the stream holds no frame the `FEED` takes what is left, if anything is, and ends (R74). -/
theorem Copying.finish {s : State} {f : Feed} (c : Copying s f) (hl : (pendingSamples s).length < s.cap) :
    ∃ t, runSteps (if f.pos < f.len then 2 else 1) s = .next t ∧ Passes s [] 0 t ∧ Ready t ∧ t.cmd = s.cmd ∧
      t.rsp = s.rsp ++ [(f.requester, responseRecord 0x00#8 f.len)] := by
  split
  · next hlt =>
    obtain ⟨t, hs, hp, ⟨hcmd, hrsp⟩, ct⟩ := c.takeLast hlt hl
    obtain ⟨u, hs', hp', hready, hcmd', hrsp'⟩ := ct.complete rfl
    exact ⟨u, runSteps_two hs hs', hp.trans hp', hready, hcmd'.trans hcmd, by rw [hrsp', hrsp]⟩
  · next hge =>
    have hple := c.feedOk.pos_le
    obtain ⟨t, hs, rest⟩ := c.complete (by omega)
    exact ⟨t, runSteps_one hs, rest⟩

end Sys2Proof.Machine
end

section
/-! Whole `FEED`s with the schedule empty (R77, R79, R80). -/

namespace Sys2Proof.Machine

theorem cfgd_of_accumulating {s : State} (h : logicalState s = .accumulating) : s.cfgd = true := by
  by_contra hc
  simp [logicalState_of_unconfigured (Bool.not_eq_true _ ▸ hc)] at h

/-- The bytes of the response that ends a `PUSH` (R53, R79). -/
theorem responseRecord_ok_one : responseRecord 0x00#8 1 = [0#8, 1#8, 0#8, 0#8, 0#8] := by decide

/-- `k` frames that leave samples of the stream over are no more than the payload has samples, because the buffer held
at most one frame (R71). -/
theorem frames_le_of_mul_lt {k cap off len : Nat} (hcap : 1 ≤ cap) (hoff : off ≤ cap) (h : k * cap < off + len) :
    k ≤ len := by
  by_contra hk
  have hmul : (len + 1) * cap ≤ k * cap := Nat.mul_le_mul_right cap (by omega)
  have hlen : len ≤ len * cap := Nat.le_mul_of_pos_right len hcap
  rw [Nat.succ_mul] at hmul
  omega

/-- A `FEED` up to its `j`-th ACK. -/
theorem Ready.rounds {s : State} {r j : Nat} {xs : List Sample} {rest : List (Nat × Record)} {more : List Record}
    (h : Ready s) (hcmd : s.cmd = (r, encode (feedCommand xs)) :: rest) (hpos : 1 ≤ xs.length)
    (hlen : xs.length < 4294967296) (hj : j * s.cap ≤ s.off + xs.length)
    (hans : s.ans = List.replicate j [0x00#8] ++ more) :
    ∃ t p, runSteps (1 + 2 * j) s = .next t ∧ Passes s xs j t ∧ Copying t (feedAt r xs p) ∧ t.cmd = rest ∧
      t.rsp = s.rsp ∧ t.off + (xs.length - p) = s.off + xs.length - j * s.cap := by
  obtain ⟨t, hrun, hp, ct, hcmdt, hrspt⟩ := h.accept hcmd hpos hlen
  have hjt : j * t.cap ≤ (pendingSamples t).length := by
    rw [hp.pending_length, hp.cap_eq, h.pendingSamples_length]
    omega
  obtain ⟨u, p, hrun', hp', ⟨hcmdu, hrspu⟩, cu⟩ := ct.acks hjt (hp.ans_eq hans)
  have htotal : Passes s xs j u := by simpa using hp.trans hp'
  refine ⟨u, p, (runSteps_add _ hrun).trans hrun', htotal, cu, hcmdu.trans hcmdt, hrspu.trans hrspt, ?_⟩
  have hcount := cu.pendingSamples_length
  rw [htotal.pending_length, h.pendingSamples_length] at hcount
  exact hcount.symm

/-- The first form of R77: every frame that the samples of the buffer and of the payload fill is sent and accepted, and
the `FEED` ends within the bound of R71. -/
theorem Ready.feed {s : State} {r : Nat} {xs : List Sample} {rest : List (Nat × Record)} {more : List Record}
    (h : Ready s) (hcmd : s.cmd = (r, encode (feedCommand xs)) :: rest) (hpos : 1 ≤ xs.length)
    (hlen : xs.length < 4294967296)
    (hans : s.ans = List.replicate ((s.off + xs.length) / s.cap) [0x00#8] ++ more) :
    ∃ n t, n ≤ 2 * (1 + xs.length) + 2 ∧ runSteps n s = .next t ∧ Passes s xs ((s.off + xs.length) / s.cap) t ∧
      Ready t ∧ t.cmd = rest ∧ t.rsp = s.rsp ++ [(r, responseRecord 0x00#8 xs.length)] := by
  have hcap := h.inv.cap_pos h.opened
  have hoff := h.inv.off_le
  have hdiv := Nat.div_add_mod' (s.off + xs.length) s.cap
  have hmod := Nat.mod_lt (s.off + xs.length) hcap
  generalize (s.off + xs.length) / s.cap = k at hans hdiv ⊢
  obtain ⟨t, p, hrun, hp, ct, hcmdt, hrspt, hcount⟩ := h.rounds hcmd hpos hlen (by omega) hans
  have hleft : (pendingSamples t).length < t.cap := by
    rw [hp.pending_length, hp.cap_eq, h.pendingSamples_length]
    omega
  obtain ⟨u, hrun', hp', hready, hcmdu, hrspu⟩ := ct.finish hleft
  refine ⟨_, u, ?_, (runSteps_add _ hrun).trans hrun', by simpa using hp.trans hp', hready, hcmdu.trans hcmdt, ?_⟩
  · have hle : k ≤ xs.length + 1 := frames_le_of_mul_lt hcap hoff (by omega)
    split
    · next hlt =>
      have hlt : p < xs.length := hlt
      have hle : k ≤ xs.length := frames_le_of_mul_lt hcap hoff (by omega)
      omega
    · omega
  · rw [hrspu, hrspt]; rfl

/-- The second form of R77: frame `m` is the first refused. -/
theorem Ready.feed_refused {s : State} {r m : Nat} {xs : List Sample} {rest : List (Nat × Record)} {b : Record}
    {more : List Record} (h : Ready s) (hcmd : s.cmd = (r, encode (feedCommand xs)) :: rest) (hpos : 1 ≤ xs.length)
    (hlen : xs.length < 4294967296) (hm : (m + 1) * s.cap ≤ s.off + xs.length)
    (hans : s.ans = List.replicate m [0x00#8] ++ b :: more) (hb : b ≠ [0x00#8]) :
    ∃ t, runSteps (1 + 2 * m + 2) s = .next t ∧ t.cmd = rest ∧
      Stalls s (frameRecords s.srate s.cap (bufSamples s ++ xs) (m + 1)) (frameAt s.cap (bufSamples s ++ xs) m)
        (r, responseRecord 0x06#8 ((m + 1) * s.cap - s.off)) more t := by
  rw [Nat.succ_mul] at hm
  obtain ⟨t, p, hrun, hp, ct, hcmdt, hrspt, hcount⟩ := h.rounds hcmd hpos hlen (by omega) hans
  have hframe : (pendingSamples t).take t.cap = frameAt s.cap (bufSamples s ++ xs) m := by
    rw [hp.pending, hp.cap_eq, h.pendingSamples_eq, frameAt]
  have hfull : t.cap ≤ (pendingSamples t).length := by
    rw [hp.pending_length, hp.cap_eq, h.pendingSamples_length]
    omega
  have hconsumed : p + (t.cap - t.off) = (m + 1) * s.cap - s.off := by
    have hple : p ≤ xs.length := ct.feedOk.pos_le
    have hoff := h.inv.off_le
    have hofft := ct.inv.off_le
    rw [hp.cap_eq] at hofft ⊢
    rw [Nat.succ_mul]
    omega
  obtain ⟨u, hrun', hcmdu, refused⟩ := ct.nak hfull (hp.ans_eq hans) hb
  refine ⟨u, (runSteps_add _ hrun).trans hrun', hcmdu.trans hcmdt, ?_⟩
  exact
    { refused with
      same := hp.same.trans refused.same
      snk := by
        rw [refused.snk, hp.snk, hframe, hp.srate_eq, h.pendingSamples_eq, frameRecords_succ, List.append_assoc]
      held := refused.held.trans hframe
      rsp := by
        rw [refused.rsp, hrspt, ← hconsumed]
        rfl }

/-- The fill offset and the samples of an idle block after frames have left the stream. -/
theorem Passes.bufSamples_eq {s t : State} {xs : List Sample} {k : Nat} (p : Passes s xs k t) (hs : Ready s)
    (ht : Ready t) : bufSamples t = (bufSamples s ++ xs).drop (k * s.cap) := by
  rw [← ht.pendingSamples_eq, p.pending, hs.pendingSamples_eq]

theorem Passes.off_eq {s t : State} {xs : List Sample} {k : Nat} (p : Passes s xs k t) (hs : Ready s)
    (ht : Ready t) : t.off = s.off + xs.length - k * s.cap := by
  rw [← ht.inv.bufSamples_length, p.bufSamples_eq hs ht, List.length_drop, List.length_append, hs.inv.bufSamples_length]

end Sys2Proof.Machine

namespace Sys2Proof.Proofs
open Sys2Proof.Machine

/-- Settles O53: the run of the `FEED`, read at its end. -/
theorem feedClosedFormAccepted : Obligations.FeedClosedFormAccepted := by
  rintro s r xs stream k rest more h hb hc ht hpos hlen hcmd rfl rfl hans
  have hs : Ready s := ⟨h, hb, hc, ht⟩
  obtain ⟨n, t, hn, hrun, hp, hready, hcmdt, hrsp⟩ := hs.feed hcmd hpos hlen hans
  refine ⟨n, t, hn, hrun, hready.idle, hready.feed_eq_none, hcmdt, hp.ans_eq hans, ?_, ?_, hp.bufSamples_eq hs hready,
    hrsp, hp.srate_eq, hp.cap_eq, hready.opened⟩
  · rw [hp.snk, hs.pendingSamples_eq]
  · rw [hp.off_eq hs hready, Nat.mod_eq_sub_div_mul]

/-- Settles O54: `m - 1` accepted frames, then a refused one. -/
theorem feedClosedFormRefused : Obligations.FeedClosedFormRefused := by
  rintro s r xs stream m rest a more h hb hc ht hpos hlen hcmd rfl hm hle hne hans
  have hs : Ready s := ⟨h, hb, hc, ht⟩
  obtain ⟨m, rfl⟩ := Nat.exists_eq_add_of_le' hm
  have hframes : (m + 1) * s.cap ≤ s.off + xs.length := (Nat.le_div_iff_mul_le (h.cap_pos hc)).1 hle
  obtain ⟨t, hrun, hcmdt, refused⟩ := hs.feed_refused hcmd hpos hlen hframes hans hne
  obtain ⟨-, -, hcap, -⟩ := refused.same
  obtain ⟨-, hfull, -⟩ := (logicalState_eq_stalled_iff t).1 refused.stalled
  have hbound : m + 1 ≤ xs.length + 1 := frames_le_of_mul_lt (h.cap_pos hc) h.off_le (by omega)
  exact ⟨_, t, by omega, hrun, refused.stalled, hcmdt, refused.ans, refused.snk, hfull.trans hcap, refused.held,
    refused.rsp⟩

/-- Settles O30: the refused frame is the first of the stream, so the refusal takes no sample. -/
theorem stalledFeedDeliversAgain : Obligations.StalledFeedDeliversAgain := by
  intro s r xs rest b more h hst ht hpos hlen hcmd hans hb
  obtain ⟨hcfgd, hfull, hbusy⟩ := (logicalState_eq_stalled_iff s).1 hst
  have hs : Ready s := ⟨h, hbusy, hcfgd, ht⟩
  have hframe : (bufSamples s ++ xs).take s.cap = bufSamples s := List.take_left' (h.bufSamples_length.trans hfull)
  obtain ⟨t, hrun, hcmdt, refused⟩ := hs.feed_refused (m := 0) hcmd hpos hlen (by omega) hans hb
  obtain ⟨-, hsrate, hcap, hcfgdt⟩ := refused.same
  obtain ⟨-, -, hidle⟩ := (logicalState_eq_stalled_iff t).1 refused.stalled
  obtain ⟨hofft, hbuft⟩ := h.buf_eq_of_bufSamples refused.inv (by rw [refused.held, frameAt_zero, hframe])
  have hfeed : t.feed = s.feed := by rw [refused.inv.feed_eq_none hidle, hs.feed_eq_none]
  refine ⟨t, hrun, ⟨hsrate, hcap, hofft, hbuft, hcfgdt, hidle.trans hbusy.symm, hfeed⟩, refused.stalled, ?_, ?_, hcmdt,
    refused.ans⟩
  · rw [refused.snk, frameRecords_one, hframe]
  · rw [refused.rsp, Nat.zero_add, Nat.one_mul, hfull, Nat.sub_self]
    rfl

/-- Settles O31: without a frame in the stream the `FEED` takes its sample and ends; with one it is sent and accepted,
and nothing is left to take. -/
theorem pushOneSample : Obligations.PushOneSample := by
  intro s r v rest h hst hbusy ht hcmd
  have hs : Ready s := ⟨h, hbusy, cfgd_of_accumulating hst, ht⟩
  refine ⟨fun hroom => ?_, fun more hfill hans => ?_⟩
  · obtain ⟨t, hrun, hp, ct, hcmdt, hrspt⟩ := hs.accept (xs := [sampleOfInt v]) hcmd le_rfl (by simp)
    have hleft : (pendingSamples t).length < t.cap := by
      rw [hp.pending_length, hp.cap_eq, hs.pendingSamples_length]
      simpa using hroom
    obtain ⟨u, hrun', hp', hready, hcmdu, hrspu⟩ := ct.finish hleft
    have htotal : Passes s [sampleOfInt v] 0 u := hp.trans hp'
    exact ⟨u, (runSteps_add 2 hrun).trans hrun', hready.idle, by simp [htotal.off_eq hs hready],
      by simp [htotal.bufSamples_eq hs hready], by simp [htotal.snk, frameRecords],
      by rw [hrspu, hrspt, ← responseRecord_ok_one]; rfl, hcmdu.trans hcmdt⟩
  · obtain ⟨t, p, hrun, hp, ct, hcmdt, hrspt, hcount⟩ :=
      hs.rounds (xs := [sampleOfInt v]) (j := 1) hcmd le_rfl (by simp) (by rw [List.length_singleton]; omega) hans
    have hleft : (pendingSamples t).length < t.cap := by
      rw [hp.pending_length, hp.cap_eq, hs.pendingSamples_length, List.length_singleton]
      omega
    obtain ⟨u, hrun', hp', hready, hcmdu, hrspu⟩ := ct.finish hleft
    have htotal : Passes s [sampleOfInt v] 1 u := hp.trans hp'
    have hdone : ¬ p < 1 := by rw [List.length_singleton] at hcount; omega
    have hframe : (bufSamples s ++ [sampleOfInt v]).length = s.cap := by
      rw [List.length_append, h.bufSamples_length, List.length_singleton, hfill]
    refine ⟨u, ?_, hready.idle, ?_, ?_, ?_, ?_, hcmdu.trans hcmdt, htotal.ans_eq hans⟩
    · rw [feedAt, List.length_singleton, if_neg hdone] at hrun'
      exact (runSteps_add 1 hrun).trans hrun'
    · simp [htotal.off_eq hs hready, hfill]
    · simp [htotal.bufSamples_eq hs hready, hframe]
    · rw [htotal.snk, hs.pendingSamples_eq, frameRecords_one, List.take_of_length_le hframe.le]
    · rw [hrspu, hrspt, ← responseRecord_ok_one]; rfl

end Sys2Proof.Proofs
end

section
/-! Chunking (R78): a sequence of `FEED`s does to the stream what one `FEED` of all their samples does. -/

namespace Sys2Proof.Machine

/-- How many frames a `FEED` of `n` samples sends: none when it is empty, on a Stalled block too (R75, R77). -/
def frameCount (cap off n : Nat) : Nat := if n = 0 then 0 else (off + n) / cap

theorem frameCount_zero (cap off : Nat) : frameCount cap off 0 = 0 := rfl

theorem frameCount_of_pos {cap off n : Nat} (h : 1 ≤ n) : frameCount cap off n = (off + n) / cap :=
  if_neg (Nat.ne_of_gt h)

theorem frameCount_le (cap off n : Nat) : frameCount cap off n ≤ (off + n) / cap := by
  unfold frameCount
  split
  · exact Nat.zero_le _
  · exact le_rfl

/-- The frames of two `FEED`s, the second finding in the buffer what the first has left there. -/
theorem frameCount_add {cap : Nat} (off m n : Nat) (hcap : 1 ≤ cap) :
    frameCount cap off (m + n) =
      frameCount cap off m + frameCount cap (off + m - frameCount cap off m * cap) n := by
  rcases Nat.eq_zero_or_pos m with rfl | hm
  · simp [frameCount_zero]
  rcases Nat.eq_zero_or_pos n with rfl | hn
  · simp [frameCount_zero]
  rw [frameCount_of_pos hm, frameCount_of_pos hn, frameCount_of_pos (Nat.add_pos_left hm n)]
  have hdiv := Nat.div_add_mod' (off + m) cap
  have hsplit : off + (m + n) = (off + m - (off + m) / cap * cap + n) + (off + m) / cap * cap := by omega
  rw [hsplit, Nat.add_mul_div_right _ _ hcap, Nat.add_comm]

/-- Any `FEED`, the empty one too, whose every DELIVER is answered ACK. -/
theorem Ready.feed_or_empty {s : State} {r : Nat} {xs : List Sample} {rest : List (Nat × Record)} {more : List Record}
    (h : Ready s) (hcmd : s.cmd = (r, encode (feedCommand xs)) :: rest) (hlen : xs.length < 4294967296)
    (hans : s.ans = List.replicate (frameCount s.cap s.off xs.length) [0x00#8] ++ more) :
    ∃ n t, runSteps n s = .next t ∧ Passes s xs (frameCount s.cap s.off xs.length) t ∧ Ready t ∧ t.cmd = rest := by
  cases xs with
  | nil => exact ⟨1, h.emptyFeed hcmd⟩
  | cons x xs =>
    have hpos : 1 ≤ (x :: xs).length := Nat.succ_pos _
    rw [frameCount_of_pos hpos] at hans ⊢
    obtain ⟨n, t, -, hrun, hp, hready, hcmdt, -⟩ := h.feed hcmd hpos hlen hans
    exact ⟨n, t, hrun, hp, hready, hcmdt⟩

/-- The `FEED`s of the pieces, one after the other, pass all their samples. -/
theorem Ready.feed_pieces {s : State} {r : Nat} {pieces : List (List Sample)} {more : List Record} (h : Ready s)
    (hcmd : s.cmd = pieces.map (fun p => (r, encode (feedCommand p)))) (hlen : pieces.flatten.length < 4294967296)
    (hans : s.ans = List.replicate (frameCount s.cap s.off pieces.flatten.length) [0x00#8] ++ more) :
    ∃ n t, runSteps n s = .next t ∧ Passes s pieces.flatten (frameCount s.cap s.off pieces.flatten.length) t ∧
      Ready t ∧ t.cmd = [] := by
  induction pieces generalizing s with
  | nil => exact ⟨0, s, rfl, .refl s, h, hcmd⟩
  | cons p ps ih =>
    rw [List.flatten_cons, List.length_append] at hlen hans ⊢
    rw [frameCount_add _ _ _ (h.inv.cap_pos h.opened)] at hans ⊢
    rw [List.replicate_add, List.append_assoc] at hans
    obtain ⟨n, t, hrun, hp, hready, hcmdt⟩ := h.feed_or_empty hcmd (by omega) hans
    have hcount : frameCount s.cap (s.off + p.length - frameCount s.cap s.off p.length * s.cap) ps.flatten.length =
        frameCount t.cap t.off ps.flatten.length := by rw [hp.off_eq h hready, hp.cap_eq]
    rw [hcount] at hans ⊢
    obtain ⟨k, u, hrun', hp', hready', hcmdu⟩ := ih hready hcmdt (by omega) (hp.ans_eq hans)
    exact ⟨n + k, u, (runSteps_add k hrun).trans hrun', hp.trans hp', hready', hcmdu⟩

/-- What joins and leaves the stream determines an idle block's buffer. -/
theorem Passes.buf_unique {s t u : State} {xs : List Sample} {k : Nat} (hs : Ready s) (p : Passes s xs k t)
    (ht : Ready t) (q : Passes s xs k u) (hu : Ready u) : t.off = u.off ∧ t.buf = u.buf :=
  hu.inv.buf_eq_of_bufSamples ht.inv ((p.bufSamples_eq hs ht).trans (q.bufSamples_eq hs hu).symm)

/-- Which records are still to come does not matter to the block. -/
theorem Ready.withCommands {s : State} (h : Ready s) (cmd : List (Nat × Record)) : Ready { s with cmd := cmd } :=
  ⟨inv_of_sameRegisters h.inv ⟨rfl, rfl, rfl, rfl, rfl, rfl, rfl⟩ rfl, h.idle, h.opened, h.turns⟩

theorem Passes.of_withCommands {s t : State} {cmd : List (Nat × Record)} {xs : List Sample} {j : Nat}
    (p : Passes { s with cmd := cmd } xs j t) : Passes s xs j t :=
  ⟨p.same, p.enough, p.pending, p.snk, p.ans⟩

end Sys2Proof.Machine

namespace Sys2Proof.Proofs
open Sys2Proof.Machine

/-- Settles O55: the one `FEED` and the `FEED`s of the pieces pass the same samples and the same number of frames. -/
theorem chunkingInvariance : Obligations.ChunkingInvariance := by
  intro s r k pieces h hb hc ht hlen hk hans
  have hs : Ready s := ⟨h, hb, hc, ht⟩
  have hle := (frameCount_le s.cap s.off pieces.flatten.length).trans hk
  obtain ⟨j, rfl⟩ := Nat.exists_eq_add_of_le hle
  rw [List.replicate_add] at hans
  obtain ⟨n1, t1, hrun1, hp1, hready1, hcmd1⟩ :=
    (hs.withCommands [(r, encode (feedCommand pieces.flatten))]).feed_or_empty rfl hlen hans
  obtain ⟨n2, t2, hrun2, hp2, hready2, hcmd2⟩ :=
    (hs.withCommands (pieces.map fun p => (r, encode (feedCommand p)))).feed_pieces rfl hlen hans
  have hp1 := hp1.of_withCommands
  have hp2 := hp2.of_withCommands
  obtain ⟨hoff, hbuf⟩ := hp1.buf_unique hs hready1 hp2 hready2
  exact ⟨n1, n2, t1, t2, hrun1, hrun2, hready1.idle, hready2.idle, hcmd1, hcmd2, hp1.snk.trans hp2.snk.symm, hoff, hbuf,
    (hp1.ans_eq hans).trans (hp2.ans_eq hans).symm⟩

end Sys2Proof.Proofs
end

section
/-! What the sink's answer does to the block that waits for it (R56, R88, R89). -/

namespace Sys2Proof.Machine

/-- A waiting block has a frame in flight (R21, R87). -/
theorem waiting_iff (s : State) :
    waiting s = true ↔ s.busy = true ∧ ∃ f fr, s.feed = some f ∧ f.phase = .wait fr := by
  constructor
  · intro h
    unfold waiting at h
    split at h
    · next f hb hf =>
      cases hp : f.phase with
      | copy => simp [hp, Phase.inflight] at h
      | wait fr => exact ⟨hb, f, fr, hf, hp⟩
    · cases h
  · rintro ⟨hb, f, fr, hf, hp⟩
    exact waiting_of_wait hb hf hp

/-- The answer to an outstanding DELIVER is the ACK or a NAK (R56). -/
theorem takeAnswer_of_wait {s : State} {f : Feed} {fr : Frame} (b : Record) (hb : s.busy = true)
    (hf : s.feed = some f) (hp : f.phase = .wait fr) :
    takeAnswer b s = if isAck b then flushAck f s else flushNak f s := by
  simp [takeAnswer, hb, hf, hp]

/-- The step that takes the awaited answer (R81). -/
theorem step_of_awaited {s : State} {f : Feed} {fr : Frame} {b : Record} {rest : List Record} (h : Inv s)
    (hat : AtAnswer s b rest) (hf : s.feed = some f) (hp : f.phase = .wait fr) :
    step s = .next (if isAck b then flushAck f { s with turns := s.turns.tail, ans := rest }
      else flushNak f { s with turns := s.turns.tail, ans := rest }) :=
  (step_of_atAnswer hat).trans (congrArg _
    (takeAnswer_of_wait (s := { s with turns := s.turns.tail, ans := rest }) b (h.busy_of_feed hf) hf hp))

/-- R88: the ACK is taken. -/
theorem step_of_ack {s : State} {f : Feed} {fr : Frame} {rest : List Record} (h : Inv s)
    (hat : AtAnswer s [0x00#8] rest) (hf : s.feed = some f) (hp : f.phase = .wait fr) :
    step s = .next (flushAck f { s with turns := s.turns.tail, ans := rest }) := by
  rw [step_of_awaited h hat hf hp, if_pos ((isAck_iff _).2 rfl)]

/-- R89: any other answer record refuses the frame. -/
theorem step_of_nak {s : State} {f : Feed} {fr : Frame} {b : Record} {rest : List Record} (h : Inv s)
    (hat : AtAnswer s b rest) (hne : b ≠ [0x00#8]) (hf : s.feed = some f) (hp : f.phase = .wait fr) :
    step s = .next (flushNak f { s with turns := s.turns.tail, ans := rest }) := by
  rw [step_of_awaited h hat hf hp, if_neg (mt (isAck_iff b).1 hne)]

/-- ACK empties the buffer of a configured block, which then has room (R88). -/
theorem logicalState_flushAck {s : State} (f : Feed) (h : Inv s) (hc : s.cfgd = true) :
    logicalState (flushAck f s) = .accumulating := by
  have hcap := h.cap_pos hc
  exact logicalState_of_room (s := flushAck f s) hc (by rw [flushAck_off, flushAck_cap]; omega)

/-- NAK leaves the full buffer to an idle block (R89). -/
theorem logicalState_flushNak {s : State} (f : Feed) (hc : s.cfgd = true) (ho : s.off = s.cap) :
    logicalState (flushNak f s) = .stalled :=
  logicalState_of_full_idle (s := flushNak f s) hc ho (flushNak_busy f s)

/-- The frame that an ACK accepts is the frame in flight (R27). -/
theorem acceptedBy_of_ack {s t : State} {f g : Feed} {fr : Frame} (hf : s.feed = some f) (hp : f.phase = .wait fr)
    (hg : t.feed = some g) (hq : g.phase = .copy) : acceptedBy s t = fr.samples := by
  simp [acceptedBy, hf, hp, hg, hq]

end Sys2Proof.Machine

namespace Sys2Proof.Proofs
open Sys2Proof.Machine

/-- Settles O26: `flushAck` writes these fields, and the frame it accepts is the one in flight. -/
theorem ackResetsTheOffset : Obligations.AckResetsTheOffset := by
  intro s f fr rest h hat hf hp
  have hc := (h.feedOk hf).configured
  refine ⟨_, step_of_ack h hat hf hp, rfl, logicalState_flushAck f (inv_withAnswers h _ rest) hc, fun g => ?_⟩
  simp [Ghost.after, hc, acceptedBy_of_ack hf hp (flushAck_feed f _)]

/-- Settles O27: `flushNak` writes these fields, and the buffer whose frame was in flight is full. -/
theorem nakEndsTheFeed : Obligations.NakEndsTheFeed := by
  intro s f fr b rest h hat hne hf hp
  have k := h.feedOk hf
  have ho := k.off_eq_cap_of_wait hp
  exact ⟨_, step_of_nak h hat hne hf hp, rfl, ho, logicalState_flushNak f k.configured ho⟩

end Sys2Proof.Proofs
end

section
/-! A block that waits for the sink goes on waiting until an answer or reset comes (R87, R106, R126). -/

namespace Sys2Proof.Machine

/-- What the steps of a waiting block leave alone, without an answer and without reset: they reject records and use up
turns. -/
structure StillWaits (s t : State) : Prop where
  same : SameRegisters s t
  snk : t.snk = s.snk
  ans : t.ans = s.ans
  turns : t.turns ⊆ s.turns
  rejections : ∃ more, t.rsp = s.rsp ++ more ∧ ∀ p ∈ more, p.2 = [5#8, 0#8, 0#8, 0#8, 0#8]

theorem SameRegisters.trans {s t u : State} (h : SameRegisters s t) (h' : SameRegisters t u) : SameRegisters s u := by
  obtain ⟨h1, h2, h3, h4, h5, h6, h7⟩ := h
  obtain ⟨k1, k2, k3, k4, k5, k6, k7⟩ := h'
  exact ⟨k1.trans h1, k2.trans h2, k3.trans h3, k4.trans h4, k5.trans h5, k6.trans h6, k7.trans h7⟩

theorem waiting_of_sameRegisters {s t : State} (h : SameRegisters s t) : waiting t = waiting s := by
  obtain ⟨-, -, -, -, -, hbusy, hfeed⟩ := h
  simp only [waiting, hbusy, hfeed]

theorem StillWaits.refl (s : State) : StillWaits s s :=
  ⟨⟨rfl, rfl, rfl, rfl, rfl, rfl, rfl⟩, rfl, rfl, List.Subset.refl _, [], by simp⟩

theorem StillWaits.trans {s t u : State} (h : StillWaits s t) (h' : StillWaits t u) : StillWaits s u := by
  obtain ⟨more, hrsp, hmore⟩ := h.rejections
  obtain ⟨more', hrsp', hmore'⟩ := h'.rejections
  exact
    { same := h.same.trans h'.same
      snk := h'.snk.trans h.snk
      ans := h'.ans.trans h.ans
      turns := List.Subset.trans h'.turns h.turns
      rejections := ⟨more ++ more', by rw [hrsp', hrsp, List.append_assoc],
        fun p hp => (List.mem_append.1 hp).elim (hmore p) (hmore' p)⟩ }

/-- An agent with nothing to do uses up its turn. -/
theorem stillWaits_turn (s : State) : StillWaits s { s with turns := s.turns.tail } :=
  ⟨sameRegisters_withAnswers s _ s.ans, rfl, rfl, List.tail_subset _, [], by simp⟩

/-- A record that begins meanwhile is rejected with consumed 0 (R106). -/
theorem stillWaits_rejected (s : State) (r : Nat) (rest : List (Nat × Record)) :
    StillWaits s (raise .errBusy (presented s r rest)) :=
  ⟨(sameRegisters_presented s r rest).trans (sameRegisters_respond r .errBusy 0 _), rfl, rfl, List.tail_subset _,
    [(r, responseRecord 0x05#8 0)], rfl, by simp [responseRecord, le32]⟩

/-- A waiting block makes no step of its own (R87). -/
theorem ownStep_of_waiting {s : State} (h : waiting s = true) : ownStep s = .next s := by
  obtain ⟨hb, f, fr, hf, hp⟩ := (waiting_iff s).1 h
  simp [ownStep, hb, hf, hp]

/-- A producer without a record uses up its turn. -/
theorem step_of_no_record {s : State} (ha : (nextTurn s).1 = .producer) (hcmd : s.cmd = []) :
    step s = .next { s with turns := s.turns.tail } := by
  simp only [step, ha, nextTurn_snd, agentMove, producerMove, hcmd]

/-- A sink without an answer uses up its turn (R126). -/
theorem step_of_no_answer {s : State} (ha : (nextTurn s).1 = .sink) (hans : s.ans = []) :
    step s = .next { s with turns := s.turns.tail } := by
  simp only [step, ha, nextTurn_snd, agentMove, sinkMove, hans]

/-- Reset comes only when the schedule names it. -/
theorem nextTurn_ne_platform {s : State} (h : Agent.platform ∉ s.turns) : (nextTurn s).1 ≠ .platform := by
  unfold nextTurn
  split
  · next a rest ht =>
    rintro rfl
    simp [ht] at h
  · unfold defaultAgent
    split
    · split <;> nofun
    · nofun

/-- One step of a waiting block, by the agent that moves: the block and the sink have nothing to do, and the producer's
record, if it has one, is rejected. -/
theorem step_of_waiting {s : State} (hw : waiting s = true) (hans : s.ans = []) (hp : Agent.platform ∉ s.turns) :
    ∃ t, step s = .next t ∧ StillWaits s t := by
  cases ha : (nextTurn s).1 with
  | block =>
    have hs := ownStep_of_waiting (s := { s with turns := s.turns.tail }) hw
    exact ⟨_, (step_of_block ha).trans hs, stillWaits_turn s⟩
  | producer =>
    cases hcmd : s.cmd with
    | nil => exact ⟨_, step_of_no_record ha hcmd, stillWaits_turn s⟩
    | cons p rest =>
      obtain ⟨r, b⟩ := p
      obtain ⟨hb, -⟩ := (waiting_iff s).1 hw
      have hs := beginRecord_of_busy (s := presented s r rest) b hb
      exact ⟨_, (step_of_atRecord ⟨ha, hcmd⟩).trans hs, stillWaits_rejected s r rest⟩
  | sink => exact ⟨_, step_of_no_answer ha hans, stillWaits_turn s⟩
  | platform => exact absurd ha (nextTurn_ne_platform hp)

/-- Any number of such steps. -/
theorem runSteps_of_waiting (k : Nat) {s : State} (hw : waiting s = true) (hans : s.ans = [])
    (hp : Agent.platform ∉ s.turns) : ∃ t, runSteps k s = .next t ∧ StillWaits s t := by
  induction k generalizing s with
  | zero => exact ⟨s, rfl, .refl s⟩
  | succ k ih =>
    obtain ⟨t, hs, w⟩ := step_of_waiting hw hans hp
    obtain ⟨u, hrun, w'⟩ := ih ((waiting_of_sameRegisters w.same).trans hw) (w.ans.trans hans)
      fun hm => hp (w.turns hm)
    exact ⟨u, by rw [Nat.add_comm, runSteps_add k (runSteps_one hs), hrun], w.trans w'⟩

end Sys2Proof.Machine

namespace Sys2Proof.Proofs
open Sys2Proof.Machine

/-- Settles O29, from the run of a waiting block. -/
theorem waitEndsOnlyByAnswerOrReset : Obligations.WaitEndsOnlyByAnswerOrReset := by
  intro k s hw hans hp
  obtain ⟨t, hrun, w⟩ := runSteps_of_waiting k hw hans hp
  exact ⟨t, hrun, w.same, w.snk, (waiting_of_sameRegisters w.same).trans hw, w.rejections⟩

end Sys2Proof.Proofs
end

section
/-! Which steps send a DELIVER, and what it holds (R73, R86, R92, R93). -/

namespace Sys2Proof.Machine

/-- An ITER that sends a DELIVER has filled the buffer, and what it sends is the whole of it, once (R86). -/
theorem iterStep_delivers {s t : State} {f : Feed} (h : iterStep f s = .next t) (hsnk : t.snk ≠ s.snk) :
    full t = true ∧ ∃ g frame, t.feed = some g ∧ g.phase = .wait ⟨s.srate, frame⟩ ∧
      t.snk = s.snk ++ [deliverRecord s.srate frame] ∧ bufRun t.buf 0 t.cap = some frame := by
  obtain ⟨xs, m, -, -, ⟨-, rfl⟩ | ⟨hfull, ys, hrun, rfl⟩⟩ := iterStep_cases f s t h
  · exact absurd (afterCopy_snk f m s) hsnk
  · exact ⟨hfull, _, ys, rfl, rfl, rfl, hrun⟩

/-- Of all the kinds of step only ITER sends a DELIVER (R92). -/
theorem StepCase.delivers {s t : State} (c : StepCase s t) (hsnk : t.snk ≠ s.snk) :
    (nextTurn s).1 = .block ∧ s.busy = true ∧ ∃ f, s.feed = some f ∧ f.phase = .copy ∧
      iterStep f { s with turns := s.turns.tail } = .next t := by
  cases c with
  | iterated f turn busy feed copy _ eq => exact ⟨turn, busy, f, feed, copy, eq⟩
  | quiet _ snk => exact absurd snk hsnk
  | reset _ eq | rejected _ _ _ _ _ _ eq | emptyFeed _ _ _ _ _ _ _ _ _ _ eq | configured _ _ _ _ _ _ _ _ _ _ eq
  | accepted _ _ _ _ _ _ _ _ _ _ eq | closed _ _ _ _ _ _ _ eq | completed _ _ _ _ _ _ eq
  | acked _ _ _ _ _ _ _ _ _ eq | naked _ _ _ _ _ _ _ _ _ eq => exact absurd (by rw [eq]; rfl) hsnk

/-- A `FEED` that copies does not wait. -/
theorem waiting_of_copy {s : State} {f : Feed} (hf : s.feed = some f) (hp : f.phase = .copy) : waiting s = false := by
  cases hb : s.busy <;> simp [waiting, hb, hf, hp, Phase.inflight]

end Sys2Proof.Machine

namespace Sys2Proof.Proofs
open Sys2Proof.Machine

/-- Settles O45: the step is an ITER that has filled the buffer, whose length is `CAP` (I2). -/
theorem onlyAFullBufferIsEmitted : Obligations.OnlyAFullBufferIsEmitted := by
  intro s t h hst hsnk
  obtain ⟨turn, hb, f, hf, hp, hs⟩ := (stepCase_of_step s t hst).delivers hsnk
  obtain ⟨hfull, g, frame, hg, hwait, hsent, hrun⟩ := iterStep_delivers hs hsnk
  obtain ⟨-, hrate, -⟩ := h.configured (h.feedOk hf).configured
  obtain ⟨-, -, hcap, -⟩ := iterStep_sameStream hs
  have hbt : t.busy = true := (iterStep_busy hs).trans hb
  have hlen : frame.length = s.cap := (bufRun_length _ _ _ _ hrun).trans hcap
  exact ⟨turn, hb, hbt, hfull, waiting_of_copy hf hp, waiting_of_wait hbt hg hwait, frame, hsent, hlen.trans hrate,
    by rw [deliverRecord_length, hlen], List.take_left' (le32_length s.srate), hrun⟩

end Sys2Proof.Proofs
end

section
/-! Which response a step sends, and what else the step does when that is an error (R101, R110, R116). -/

namespace Sys2Proof.Machine

/-! ### Response records -/

theorem statusCode_injective : Function.Injective statusCode := by
  intro e e'
  cases e <;> cases e' <;> decide

/-- A response record tells its status, and its consumed count modulo `2^32` (R53, R101). -/
theorem responseRecord_inj {e e' : Status} {m n : Nat}
    (h : responseRecord (statusCode e) m = responseRecord (statusCode e') n) :
    e = e' ∧ BitVec.ofNat 32 m = BitVec.ofNat 32 n := by
  refine ⟨statusCode_injective (List.cons.inj h).1, ?_⟩
  rw [← operandAt_responseRecord (statusCode e), h, operandAt_responseRecord]

/-- A step sends no second response beside the one named (R53). -/
theorem eq_of_append_response {s t : State} {r r' n n' : Nat} {e e' : Status}
    (h : t.rsp = s.rsp ++ [(r, responseRecord (statusCode e) n)])
    (h' : t.rsp = s.rsp ++ [(r', responseRecord (statusCode e') n')]) :
    r = r' ∧ e = e' ∧ BitVec.ofNat 32 n = BitVec.ofNat 32 n' := by
  have hp := List.singleton_inj.1 (List.append_cancel_left (h.symm.trans h'))
  exact ⟨congrArg Prod.fst hp, responseRecord_inj (congrArg Prod.snd hp)⟩

/-! ### What a step answers -/

/-- What one step answers: nothing, one `OK`, the rejection of a record, or the `ERR_SINK` of a refused frame. -/
inductive Answers (s t : State) : Prop where
  | nothing (rsp : t.rsp = s.rsp)
  | ok (r n : Nat) (rsp : t.rsp = s.rsp ++ [(r, responseRecord (statusCode .ok) n)])
  /-- R110: a record is rejected, and nothing else happens. -/
  | rejection (r : Nat) (b : Record) (rest : List (Nat × Record)) (e : Status) (at_ : AtRecord s r b rest)
      (imm : Immediate e) (eq : t = raise e (presented s r rest))
  /-- R89: the sink refuses the frame in flight. -/
  | refusal (f : Feed) (fr : Frame) (b : Record) (rest : List Record) (at_ : AtAnswer s b rest)
      (busy : s.busy = true) (feed : s.feed = some f) (wait : f.phase = .wait fr) (nak : isAck b = false)
      (eq : t = flushNak f { s with turns := s.turns.tail, ans := rest })

/-- Of the kinds of step only a rejection and a NAK answer an error. -/
theorem StepCase.answers {s t : State} (c : StepCase s t) : Answers s t := by
  cases c with
  | quiet _ _ rsp => exact .nothing rsp
  | rejected r b rest e at_ imm eq => exact .rejection r b rest e at_ imm eq
  | naked f fr b rest at_ busy feed wait nak eq => exact .refusal f fr b rest at_ busy feed wait nak eq
  | iterated f _ _ _ _ _ eq =>
    obtain ⟨rsp, -⟩ := iterStep_rsp_cmd eq
    exact .nothing rsp
  | reset _ eq | accepted _ _ _ _ _ _ _ _ _ _ eq | acked _ _ _ _ _ _ _ _ _ eq => exact .nothing (by rw [eq]; rfl)
  | emptyFeed r _ _ _ _ _ _ _ _ _ eq | configured r _ _ _ _ _ _ _ _ _ eq | closed r _ _ _ _ _ _ eq =>
    exact .ok r 0 (by rw [eq]; rfl)
  | completed f _ _ _ _ _ eq => exact .ok f.requester f.len (by rw [eq]; rfl)

/-! ### Records presented -/

theorem sameRegisters_rejection (s : State) (r : Nat) (rest : List (Nat × Record)) (e : Status) :
    SameRegisters s (raise e (presented s r rest)) :=
  (sameRegisters_presented s r rest).trans (sameRegisters_respond r e 0 _)

/-- R106: a record presented to a busy block is taken and rejected undecoded. -/
theorem step_of_record_of_busy {s : State} {r : Nat} {b : Record} {rest : List (Nat × Record)}
    (hat : AtRecord s r b rest) (hb : s.busy = true) : step s = .next (raise .errBusy (presented s r rest)) :=
  (step_of_atRecord hat).trans (beginRecord_of_busy (s := presented s r rest) b hb)

/-- R108: an illegal record presented to an idle block is taken and answered `ERR_ILLEGAL`. -/
theorem step_of_illegal_record {s : State} {r : Nat} {b : Record} {rest : List (Nat × Record)} {e : Illegal}
    (hat : AtRecord s r b rest) (hb : s.busy = false) (hd : decode b = .error e) :
    step s = .next (raise .errIllegal (presented s r rest)) :=
  (step_of_atRecord hat).trans (beginRecord_of_illegal (s := presented s r rest) hb hd)

/-- `CFG` with a rate that the calculator refuses, on an idle, unconfigured block (R61). -/
theorem exec_cfg_of_reject {s : State} {rate : Word} {e : Status} (hb : s.busy = false) (hc : s.cfgd = false)
    (hf : framesize s.config.capMax rate = .reject e) : exec (.cfg rate) s = .next (raise e s) := by
  simp [exec, execCfg, hb, hc, hf]

/-! ### Commands without an error -/

/-- R116 (a), (b) and (d): the record is a legal command that follows the lifecycle, and its rate, if it has one, is
acceptable. -/
def FollowsLifecycle (s : State) (b : Record) : Prop :=
  (∃ rate cap, decode b = .ok (.cfg rate) ∧ s.cfgd = false ∧ framesize s.config.capMax rate = .accept cap) ∨
    (s.cfgd = true ∧ (decode b = .ok .endStream ∨ ∃ len payload, decode b = .ok (.feed len payload)))

/-- Such a record on an idle block is answered `OK`, now or when its `FEED` completes. -/
theorem rsp_of_followsLifecycle {s t : State} {r : Nat} {b : Record} {rest : List (Nat × Record)}
    (hat : AtRecord s r b rest) (hb : s.busy = false) (hl : FollowsLifecycle s b) (hst : step s = .next t) :
    t.rsp = s.rsp ∨ t.rsp = s.rsp ++ [(r, responseRecord 0x00#8 0)] := by
  obtain ⟨rate, cap, hd, hc, hf⟩ | ⟨hc, hd | ⟨len, payload, hd⟩⟩ := hl <;> rw [step_of_command hat hb hd] at hst
  · rw [exec_cfg_of_accept (s := presented s r rest) hb hc hf] at hst
    exact .inr (by rw [← next_inj hst]; rfl)
  · rw [exec_endStream_of_configured (s := presented s r rest) hb hc] at hst
    exact .inr (by rw [← next_inj hst]; rfl)
  · by_cases hz : len.toNat = 0
    · rw [exec_feed_of_zero (s := presented s r rest) payload hb hc hz] at hst
      exact .inr (by rw [← next_inj hst]; rfl)
    · rw [exec_feed_of_pos (s := presented s r rest) payload hb hc (by omega)] at hst
      exact .inl (by rw [← next_inj hst]; rfl)

end Sys2Proof.Machine

namespace Sys2Proof.Proofs
open Sys2Proof.Machine

/-- Settles O35: a step that answers an error is a rejection or a NAK, and its response tells which. -/
theorem errorEntryChangesNothing : Obligations.ErrorEntryChangesNothing := by
  intro s t r e n hst hrsp hn he
  cases (stepCase_of_step s t hst).answers with
  | nothing rsp => simp [rsp] at hrsp
  | ok r' n' rsp =>
    obtain ⟨-, rfl, -⟩ := eq_of_append_response hrsp rsp
    exact absurd rfl he
  | rejection r' b rest e' at_ imm eq =>
    subst eq
    obtain ⟨-, rfl, hcount⟩ := eq_of_append_response hrsp (raise_rsp e' (presented s r' rest))
    have hzero : n = 0 := by simpa [Nat.mod_eq_of_lt hn] using congrArg BitVec.toNat hcount
    obtain ⟨-, hsink⟩ := imm
    exact ⟨fun _ => ⟨sameRegisters_rejection s r rest e, rfl, hzero⟩, fun h => absurd h hsink⟩
  | refusal f fr b rest at_ busy feed wait nak eq =>
    subst eq
    obtain ⟨rfl, rfl, hcount⟩ := eq_of_append_response hrsp (flushNak_rsp f _)
    have hinflight : f.phase.inflight.isSome = true := by rw [wait]; rfl
    exact ⟨fun h => absurd rfl h,
      fun _ => ⟨f, feed, busy, hinflight, rfl, rfl, rfl, rfl, rfl, rfl, rfl, rfl, rfl, hcount⟩⟩

/-- Settles O51: a step that answers an error presents a record or a NAK; the record would be answered `OK`, and the
answer presented is ACK. -/
theorem errorFreeOperation : Obligations.ErrorFreeOperation := by
  intro s t _ hst hrecord hanswer
  cases (stepCase_of_step s t hst).answers with
  | nothing rsp => exact .inl rsp
  | ok r n rsp => exact .inr ⟨r, n, rsp⟩
  | rejection r b rest _ at_ =>
    obtain ⟨hb, hl⟩ := hrecord r b rest at_
    exact (rsp_of_followsLifecycle at_ hb hl hst).imp_right fun rsp => ⟨r, 0, rsp⟩
  | refusal _ _ b rest at_ _ _ _ nak =>
    rw [(isAck_iff b).2 (hanswer b rest at_)] at nak
    cases nak

/-- Settles O16, branch by branch: the busy block, the open stream, then the three refusals of the calculator. -/
theorem cfgErrors : Obligations.CfgErrors := by
  intro s rate e he
  change exec (.cfg rate) s = .next (raise e s)
  cases hb : s.busy with
  | true =>
    obtain rfl : e = .errBusy := by simpa [hb] using he
    exact exec_of_busy _ hb
  | false =>
    cases hc : s.cfgd with
    | true =>
      obtain rfl : e = .errState := by simpa [hb, hc] using he
      exact exec_cfg_of_configured rate hb hc
    | false =>
      apply exec_cfg_of_reject hb hc
      simp only [hb, hc, Bool.false_eq_true, if_false] at he
      split_ifs at he with hz hd
      · rw [he, framesize_of_zero _ hz]
      · rw [he, framesize_of_not_dvd _ hz hd]
      · obtain ⟨hr, rfl⟩ := he
        exact framesize_of_gt hz (not_not.1 hd) hr

/-- Settles O17, by evaluating the code of each status. -/
theorem statusCodeValues : Obligations.StatusCodeValues :=
  ⟨rfl, rfl, rfl, rfl, rfl, rfl, rfl, rfl⟩

/-- Settles O32, by the equation of a command presented to an idle block. -/
theorem stepRunsTheDecodedCommand : Obligations.StepRunsTheDecodedCommand :=
  fun _ _ _ _ _ hat hb hd => step_of_command hat hb hd

/-- Settles O33: the rejection changes no register, and `responseRecord` evaluates to the five bytes. -/
theorem busyRejectsEveryRecord : Obligations.BusyRejectsEveryRecord :=
  fun s r _ rest hat hb =>
    ⟨_, step_of_record_of_busy hat hb, sameRegisters_rejection s r rest .errBusy, rfl, rfl, rfl, rfl⟩

/-- Settles O34 in the same way. -/
theorem illegalRecordChangesNothing : Obligations.IllegalRecordChangesNothing :=
  fun s r _ rest _ hat hb hd =>
    ⟨_, step_of_illegal_record hat hb hd, sameRegisters_rejection s r rest .errIllegal, rfl, rfl, rfl, rfl⟩

/-- Settles O52: a step of the system replaces the state at index `k` by its own next state, and no other. -/
theorem instancesAreIndependent : Obligations.InstancesAreIndependent := by
  intro k ss s t hk hst
  obtain ⟨hlt, -⟩ := List.getElem?_eq_some_iff.1 hk
  exact ⟨ss.set k t, by simp only [stepInstance, hk, hst], List.length_set, List.getElem?_set_self hlt,
    fun j hj => List.getElem?_set_ne hj.symm⟩

end Sys2Proof.Proofs
end

section
/-! A record and an answer that come together to a waiting block (R109). -/

namespace Sys2Proof.Machine

theorem nextTurn_of_cons {s : State} {a : Agent} {rest : List Agent} (h : s.turns = a :: rest) :
    (nextTurn s).1 = a := by
  simp only [nextTurn, h]

theorem runSteps_two_of_step {s t : State} (h : step s = .next t) : runSteps 2 s = step t := by
  rw [runSteps_add 1 (runSteps_one h)]
  simp only [runSteps]
  cases step t <;> rfl

/-- An answer moves no other agent's turn or record. -/
theorem takeAnswer_turns_cmd (b : Record) (s : State) :
    (takeAnswer b s).turns = s.turns ∧ (takeAnswer b s).cmd = s.cmd := by
  obtain same | ⟨f, fr, -, -, -, ⟨-, ack⟩ | ⟨-, nak⟩⟩ := takeAnswer_cases b s
  · rw [same]; exact ⟨rfl, rfl⟩
  · rw [ack]; exact ⟨rfl, rfl⟩
  · rw [nak]; exact ⟨rfl, rfl⟩

/-- The record first: the waiting block is busy and rejects it, then takes the answer (R106). -/
theorem runSteps_record_answer {s : State} {r : Nat} {b a : Record} {rest : List (Nat × Record)} {more : List Record}
    (hb : s.busy = true) (hcmd : s.cmd = (r, b) :: rest) (hans : s.ans = a :: more) :
    runSteps 2 { s with turns := [.producer, .sink] } =
      .next (takeAnswer a (raise .errBusy { s with turns := [], cmd := rest, port := r, ans := more })) := by
  rw [runSteps_two_of_step (step_of_record_of_busy (s := { s with turns := [.producer, .sink] }) ⟨rfl, hcmd⟩ hb)]
  exact step_of_atAnswer ⟨rfl, hans⟩

/-- The answer first: the record begins in the state that the answer leaves. -/
theorem runSteps_answer_record {s : State} {r : Nat} {b a : Record} {rest : List (Nat × Record)} {more : List Record}
    (hcmd : s.cmd = (r, b) :: rest) (hans : s.ans = a :: more) :
    runSteps 2 { s with turns := [.sink, .producer] } =
      beginRecord b (presented (takeAnswer a { s with turns := [.producer], ans := more }) r rest) := by
  rw [runSteps_two_of_step (step_of_atAnswer (s := { s with turns := [.sink, .producer] }) ⟨rfl, hans⟩)]
  obtain ⟨hturns, hrest⟩ := takeAnswer_turns_cmd a { s with turns := [.producer], ans := more }
  exact step_of_atRecord ⟨nextTurn_of_cons hturns, hrest.trans hcmd⟩

end Sys2Proof.Machine

namespace Sys2Proof.Proofs
open Sys2Proof.Machine

/-- Settles O37: an ACK leaves the block busy, so the record is rejected in either order and the two updates commute; a
NAK ends the `FEED`, so the record that comes second finds the block idle. -/
theorem commandAndAnswerTogether : Obligations.CommandAndAnswerTogether := by
  intro s r b a rest more hw hcmd hans
  obtain ⟨hb, f, fr, hf, hp⟩ := (waiting_iff s).1 hw
  rw [runSteps_record_answer hb hcmd hans, runSteps_answer_record hcmd hans,
    takeAnswer_of_wait (s := raise .errBusy { s with turns := [], cmd := rest, port := r, ans := more }) a hb hf hp,
    takeAnswer_of_wait (s := { s with turns := [.producer], ans := more }) a hb hf hp]
  refine ⟨fun ha => ?_, fun ha => ?_⟩
  · have hack := (isAck_iff a).2 ha
    rw [if_pos hack, if_pos hack]
    exact ⟨_, rfl, beginRecord_of_busy b hb, rfl⟩
  · have hnak := mt (isAck_iff a).1 ha
    rw [if_neg hnak, if_neg hnak]
    exact ⟨f, hf, ⟨_, rfl, rfl, List.append_assoc _ _ _⟩, rfl⟩

end Sys2Proof.Proofs
end

section
/-! Reset abandons everything, and a busy block is never at rest (R120, R121, R132). -/

namespace Sys2Proof.Machine

/-- The registers take the values of R25, whatever they were. -/
theorem sameRegisters_applyReset (s : State) : SameRegisters State.reset (applyReset s) :=
  ⟨rfl, rfl, rfl, rfl, rfl, rfl, rfl⟩

theorem sameEnvironment_applyReset (s : State) : SameEnvironment s (applyReset s) := ⟨rfl, rfl, rfl, rfl⟩

/-- While `BUSY` is set there is a `FEED` in progress (R17, R21). -/
theorem Inv.exists_feed {s : State} (h : Inv s) (hb : s.busy = true) : ∃ f, s.feed = some f :=
  Option.isSome_iff_exists.1 (h.busy_feed.symm.trans hb)

/-- With payload left, only a full buffer lets a copy step move nothing (R72). -/
theorem Inv.off_eq_cap_of_copyCount_eq_zero {s : State} {f : Feed} (h : Inv s) (hl : f.pos < f.len)
    (hn : copyCount f s = 0) : s.off = s.cap := by
  have hoff := h.room_add_off
  simp only [copyCount] at hn
  omega

/-- An ITER with payload left changes the state: it moves `OFF`, or finds the buffer full and sends a DELIVER (R80). -/
theorem iterStep_ne {s t : State} {f : Feed} (h : Inv s) (hf : s.feed = some f) (hl : f.pos < f.len)
    (hs : iterStep f s = .next t) : t ≠ s := by
  rcases (copyCount f s).eq_zero_or_pos with hn | hn
  · have hfull : s.off + copyCount f s = s.cap := by rw [hn, h.off_eq_cap_of_copyCount_eq_zero hl hn, Nat.add_zero]
    obtain ⟨_, _, -, -, -, -, -, -, hs'⟩ := iterStep_filling s f h hf hfull
    obtain rfl := next_inj (hs'.symm.trans hs)
    exact ne_of_apply_ne State.snk (by simp)
  · have hoff := iterStep_off hs
    exact ne_of_apply_ne State.off (by omega)

/-- COMPLETE clears `BUSY` (R74). -/
theorem completeStep_ne {s : State} (f : Feed) (hb : s.busy = true) : completeStep f s ≠ s :=
  ne_of_apply_ne State.busy (by simp [hb])

end Sys2Proof.Machine

namespace Sys2Proof.Proofs
open Sys2Proof.Machine

/-- Settles O50: the `FEED` in progress waits for the sink, or copies (ITER), or is done (COMPLETE); both of the
block's steps are enabled and change the state. -/
theorem busyIsNeverFinal : Obligations.BusyIsNeverFinal := by
  intro s h hb
  obtain ⟨f, hf⟩ := h.exists_feed hb
  cases hp : f.phase with
  | wait fr => exact .inl (waiting_of_wait hb hf hp)
  | copy =>
    right
    rcases (h.feedOk hf).pos_le.lt_or_eq with hl | hl
    · obtain ⟨t, hs⟩ := iterStep_next h hf
      exact ⟨t, (ownStep_of_lt hb hf hp hl).trans hs, iterStep_ne h hf hl hs⟩
    · exact ⟨_, ownStep_of_eq hb hf hp hl, completeStep_ne f hb⟩

/-- Settles O13: the platform's move is `applyReset` with its turn taken off. -/
theorem resetAbandonsEverything : Obligations.ResetAbandonsEverything :=
  fun _ h => ⟨_, step_of_platform h, sameRegisters_applyReset _, rfl, rfl, sameEnvironment_applyReset _⟩

end Sys2Proof.Proofs
end
